-- ==== Sys2Proof/Word.lean ====
section
/-! DEFINITION. The words the spec names: a channel or buffer byte, a command word, a 24-bit channel pattern, a pixel index. -/

namespace Sys2Proof

/-- A colour channel, or one byte of the transmit buffer or of `wire` (00_scope.md R11). -/
abbrev Byte := BitVec 8

/-- A command word, 64 bits (30_encoding.md R310, R315). -/
abbrev CmdWord := BitVec 64

/-- The 24-bit serial pattern of one channel (40_bit_expander.md R402), also the width of `result`. -/
abbrev Pattern := BitVec 24

/-- A pixel index operand, 16 bits unsigned (30_encoding.md R312). -/
abbrev PixelIdx := BitVec 16

end Sys2Proof
end

