-- ==== Sys2Proof/Config.lean ====
section
/-! DEFINITION. The parameters of an engine instance (00_scope.md R8), fixed for its life, and the one free value of the
model: which agent steps when several may and the schedule in State says nothing. -/

namespace Sys2Proof

/-- ORDER, the wire order of a pixel's channels (00_scope.md R8; the only two the spec allows). -/
inductive ColorOrder where
  | grb
  | rgb
deriving DecidableEq, Repr, Inhabited

/-- The parameters of 00_scope.md R8 (register CONFIG of 10_state.md R114). They are plain data of the state, so that a
statement about every state holds for every legal value of each of them (log entry 1). -/
structure Config where
  /-- `N`, the pixel count. -/
  n : Nat
  /-- `ORDER`. -/
  order : ColorOrder
  /-- `INVERT`. -/
  invert : Bool
  /-- `SERIAL_CLOCK_HZ`. -/
  serialClockHz : Nat
  /-- `CIE_ENABLE`. -/
  cieEnable : Bool
  /-- `CIE_TABLE`, a function from 8 bits to 8 bits written as its 256 values (log entry 16). -/
  cieTable : Vector Byte 256
  /-- `MAX_TRANSFER_BYTES`. -/
  maxTransferBytes : Nat
deriving DecidableEq, Repr

/-- `LATCH_US`, fixed by the source (00_scope.md R8). -/
def Config.latchUs : Nat := 50

/-- DESIGN CHOICE (log entry 2). The parameters of the instance that `State.reset` is: those of the spec's own scenario
(95_test_vectors.md 1.6, program 1), with the least MAX_TRANSFER_BYTES that 00_scope.md R10 allows. -/
def Config.atReset : Config where
  n := 3
  order := .grb
  invert := false
  serialClockHz := 2400000
  cieEnable := false
  cieTable := Vector.replicate 256 0#8
  maxTransferBytes := 42

/-- Who takes the next step when the host and the hardware both can (60_exceptions.md R613). The hardware's enabled agent
is then the DMA channel or the completion event, never both. -/
inductive Turn where
  | host
  | hardware
deriving DecidableEq, Repr, Inhabited

/-- FREE VALUE (60_exceptions.md R613, 42_transfer_engine.md R521; log entry 8): once no schedule decides, how many host
steps go before the hardware's `k`-th chosen step. It has no body, so nothing can be proved of its values; that each is a
number is weak fairness. -/
opaque Config.freeLead : Nat → Nat

end Sys2Proof
end

