-- ==== Sys2Proof/Machine/Params.lean ====
section
/-! DEFINITION. The quantities that follow from the parameters: L, T, the raw length and LATCH_BYTE. -/

namespace Sys2Proof.Machine

/-- `L = SERIAL_CLOCK_HZ div 160000`, the latch byte count, in exact integer arithmetic (00_scope.md R12). -/
def latchCount (c : Config) : Nat := c.serialClockHz / 160000

/-- `9 * N`, the length of `raw` (00_scope.md R11). -/
def rawLength (c : Config) : Nat := 9 * c.n

/-- `T = 9 * N + L`, the transmit length (00_scope.md R11). -/
def txLength (c : Config) : Nat := rawLength c + latchCount c

/-- `LATCH_BYTE`, logical low on the line (20_memory.md R203). -/
def latchByte (c : Config) : Byte := if c.invert then 0xFF#8 else 0x00#8

end Sys2Proof.Machine
end

