-- ==== Sys2Proof/Syntax.lean ====
section
/-! DEFINITION. The syntax: the nine host commands (30_encoding.md R313), one constructor per row of spec/opcode_table.json. -/

namespace Sys2Proof

/-- A host command with its operands. Every operand is as wide as its field (30_encoding.md R311, R312). -/
inductive Instr where
  /-- ENCODE_CHANNEL val (40_bit_expander.md R410). -/
  | encodeChannel (val : Byte)
  /-- SET_COLOR idx, red, green, blue (41_frame_buffer.md R451). -/
  | setColor (idx : PixelIdx) (red green blue : Byte)
  /-- GET_COLOR idx (41_frame_buffer.md R453). -/
  | getColor (idx : PixelIdx)
  /-- SET_BRIGHTNESS val (41_frame_buffer.md R455). -/
  | setBrightness (val : Byte)
  /-- EXPAND_ALL (41_frame_buffer.md R458). -/
  | expandAll
  /-- WRITE_NB (42_transfer_engine.md R502). -/
  | writeNb
  /-- WRITE_B (42_transfer_engine.md R504). -/
  | writeB
  /-- WAIT_COMPLETE (42_transfer_engine.md R506). -/
  | waitComplete
  /-- POLL_COMPLETE (42_transfer_engine.md R508). -/
  | pollComplete
deriving DecidableEq, Repr

end Sys2Proof
end

