-- ==== Sys2Proof/WellFormed.lean ====
section
/-! DEFINITION. Well-formedness: of a configuration (00_scope.md R8, R10) and of an instruction. -/

namespace Sys2Proof

/-- 00_scope.md R8, R10: every parameter in its legal range and `9*N + L >= 1`. ORDER, the bits and CIE_TABLE are in
range by their types. -/
def Config.wf (c : Config) : Bool :=
  decide (1 ≤ c.n) && decide (c.n ≤ 65536) && decide (0 < c.serialClockHz)
    && decide (1 ≤ Machine.txLength c) && decide (Machine.txLength c ≤ c.maxTransferBytes)

/-- An instruction is well formed when each operand fits its field (30_encoding.md R311, R312). The operand types are
exactly the fields, so every term of `Instr` is well formed: a range check on operands written as numbers stands in
Machine/Asm.lean. -/
def Instr.wf : Instr → Bool
  | .encodeChannel _ => true
  | .setColor _ _ _ _ => true
  | .getColor _ => true
  | .setBrightness _ => true
  | .expandAll => true
  | .writeNb => true
  | .writeB => true
  | .waitComplete => true
  | .pollComplete => true

end Sys2Proof
end

