-- ==== Sys2Proof/Decode.lean ====
section
/-! DEFINITION. Decoding a command word, total, with each refusal named (30_encoding.md R311 to R316), and the encoder. -/

namespace Sys2Proof

/-- Why a word spells no command (30_encoding.md R314). -/
inductive DecodeRefusal where
  /-- The opcode is 0x00 or 0x0A to 0xFF. -/
  | reservedOpcode (op : Byte)
  /-- The opcode is listed, and a reserved bit of its format is not zero. -/
  | reservedBits (op : Byte)
deriving DecidableEq, Repr

/-- `op = w[7:0]` (30_encoding.md R311). -/
def opField (w : CmdWord) : Byte := w.extractLsb' 0 8

/-- `val = w[15:8]`. -/
def valField (w : CmdWord) : Byte := w.extractLsb' 8 8

/-- `idx = w[23:8]`. -/
def idxField (w : CmdWord) : PixelIdx := w.extractLsb' 8 16

/-- `red = w[31:24]`. -/
def redField (w : CmdWord) : Byte := w.extractLsb' 24 8

/-- `green = w[39:32]`. -/
def greenField (w : CmdWord) : Byte := w.extractLsb' 32 8

/-- `blue = w[47:40]`. -/
def blueField (w : CmdWord) : Byte := w.extractLsb' 40 8

/-- `require w[63:lo] = 0` of 30_encoding.md R316: the command where every bit from `lo` up is zero, else the refusal. -/
def requireZeroFrom (w : CmdWord) (lo : Nat) (i : Instr) : Except DecodeRefusal Instr :=
  if w.toNat < 2 ^ lo then .ok i else .error (.reservedBits (opField w))

/-- The decoder of 30_encoding.md R316. -/
def decode (w : CmdWord) : Except DecodeRefusal Instr :=
  match (opField w).toNat with
  | 0x01 => requireZeroFrom w 16 (.encodeChannel (valField w))
  | 0x02 => requireZeroFrom w 48 (.setColor (idxField w) (redField w) (greenField w) (blueField w))
  | 0x03 => requireZeroFrom w 24 (.getColor (idxField w))
  | 0x04 => requireZeroFrom w 16 (.setBrightness (valField w))
  | 0x05 => requireZeroFrom w 8 .expandAll
  | 0x06 => requireZeroFrom w 8 .writeNb
  | 0x07 => requireZeroFrom w 8 .writeB
  | 0x08 => requireZeroFrom w 8 .waitComplete
  | 0x09 => requireZeroFrom w 8 .pollComplete
  | _ => .error (.reservedOpcode (opField w))

/-- Format `FN` of 30_encoding.md R311: no operand. -/
def formatFN (op : Byte) : CmdWord := 0#56 ++ op

/-- Format `FV`: an 8-bit value. -/
def formatFV (op val : Byte) : CmdWord := 0#48 ++ val ++ op

/-- Format `FI`: an index. -/
def formatFI (op : Byte) (idx : PixelIdx) : CmdWord := 0#40 ++ idx ++ op

/-- Format `FC`: an index and a colour. -/
def formatFC (op : Byte) (idx : PixelIdx) (red green blue : Byte) : CmdWord :=
  0#16 ++ blue ++ green ++ red ++ idx ++ op

/-- The encoder, from the formats of 30_encoding.md R311 and the opcode map of R313. -/
def encode : Instr → CmdWord
  | .encodeChannel val => formatFV 0x01#8 val
  | .setColor idx red green blue => formatFC 0x02#8 idx red green blue
  | .getColor idx => formatFI 0x03#8 idx
  | .setBrightness val => formatFV 0x04#8 val
  | .expandAll => formatFN 0x05#8
  | .writeNb => formatFN 0x06#8
  | .writeB => formatFN 0x07#8
  | .waitComplete => formatFN 0x08#8
  | .pollComplete => formatFN 0x09#8

/-- A row of spec/opcode_table.json: a word is the row's when its bits under `mask` are `value`. -/
structure OpcodeRow where
  value : CmdWord
  mask : CmdWord
deriving DecidableEq, Repr

/-- The word is one of the row's. -/
def OpcodeRow.matches (r : OpcodeRow) (w : CmdWord) : Bool := w &&& r.mask == r.value

/-- The nine rows of spec/opcode_table.json in the table's order. The decoder does not use them: they are there to hold
it against. -/
def opcodeTable : List OpcodeRow :=
  [ ⟨0x0000000000000001#64, 0xFFFFFFFFFFFF00FF#64⟩,
    ⟨0x0000000000000002#64, 0xFFFF0000000000FF#64⟩,
    ⟨0x0000000000000003#64, 0xFFFFFFFFFF0000FF#64⟩,
    ⟨0x0000000000000004#64, 0xFFFFFFFFFFFF00FF#64⟩,
    ⟨0x0000000000000005#64, 0xFFFFFFFFFFFFFFFF#64⟩,
    ⟨0x0000000000000006#64, 0xFFFFFFFFFFFFFFFF#64⟩,
    ⟨0x0000000000000007#64, 0xFFFFFFFFFFFFFFFF#64⟩,
    ⟨0x0000000000000008#64, 0xFFFFFFFFFFFFFFFF#64⟩,
    ⟨0x0000000000000009#64, 0xFFFFFFFFFFFFFFFF#64⟩ ]

/-- The command word of a table word of `nbits` bits whose bits are `w`; every bit above `nbits` is zero. -/
def tableWord (nbits w : Nat) : CmdWord := BitVec.ofNat 64 (w % 2 ^ nbits)

/-- What the decoder reads from a table word. A word with a bit above bit 63 is no command word. -/
def decodeTableWord (nbits w : Nat) : Option Instr :=
  if w % 2 ^ nbits < 2 ^ 64 then (decode (tableWord nbits w)).toOption else none

end Sys2Proof
end

