-- ==== Sys2Proof/Machine/State.lean ====
section
/-! DEFINITION. The state of one engine instance (10_state.md), the reasons a step can stop, and the state after reset. -/

namespace Sys2Proof.Machine

/-- A pixel colour (10_state.md R102). -/
structure Color where
  red : Byte
  green : Byte
  blue : Byte
deriving DecidableEq, Repr, Inhabited

/-- The transfer state `fsm` (10_state.md R105). -/
inductive Fsm where
  | idle
  | pending
  | inflight
deriving DecidableEq, Repr

/-- The sticky fault register (10_state.md R109, 60_exceptions.md R600). -/
inductive FaultCode where
  | none
  | writeBusy
  | expandBusy
  | readRange
deriving DecidableEq, Repr

/-- The host's wait state `hwait` (10_state.md R110). -/
inductive HostWait where
  | run
  | waitDone
deriving DecidableEq, Repr

/-- The agents that take steps (00_scope.md R16). -/
inductive Agent where
  | host
  | dma
  | completion
deriving DecidableEq, Repr

/-- What the host does next: issue one command word (30_encoding.md R310), or the host-side loop of
42_transfer_engine.md R509, POLL_COMPLETE until `result = 1` (log entry 7). -/
inductive HostAct where
  | issue (w : CmdWord)
  | pollUntilDone
deriving DecidableEq, Repr

/-- The transmit buffer's contents: the bytes that differ from what an unlisted byte reads as, addresses rising. -/
abbrev Memory := List Host.Cell

/-- The state of 10_state.md, then four fields of the model's own: what the host has still to do (log entry 7) and the
choices among enabled agents (log entry 8). -/
structure State where
  /-- The parameters; register CONFIG (10_state.md R113, R114). -/
  cfg : Config
  /-- `colors[0..N-1]` (R102). -/
  colors : List Color
  /-- Brightness plus one (R103). -/
  bp1 : BitVec 9
  /-- `tx[0..T-1]` (R104). -/
  tx : Memory
  /-- `fsm` (R105). -/
  fsm : Fsm
  /-- `in_flight` (R106). -/
  inFlight : Bool
  /-- `done` (R107). -/
  done : Bool
  /-- `dma_idx` (R108). -/
  dmaIdx : Nat
  /-- `fault` (R109). -/
  fault : FaultCode
  /-- `hwait` (R110). -/
  hwait : HostWait
  /-- `result` (R111). -/
  result : Pattern
  /-- `wire`, first byte sent first (R112). -/
  wire : List Byte
  /-- The model's own: the command words and poll loops the host has still to do, the next one first (30_encoding.md R310,
  42_transfer_engine.md R509; log entry 7). -/
  cmds : List HostAct
  /-- The model's own: who goes first at the coming choices between host and hardware (60_exceptions.md R613; log entry 8). -/
  sched : List Turn
  /-- The model's own: how many hardware steps the free value `Config.freeLead` has let go first (log entry 8). -/
  turns : Nat
  /-- The model's own: how many host steps went first since the last of them (log entry 8). -/
  lead : Nat
deriving DecidableEq, Repr

/-- Why the machine stops. -/
inductive Fault where
  /-- A step, or a command, in a state whose `fault` register is set: no agent has a step (60_exceptions.md R601). Raised
  by `advance` and by every command's precondition. Safe. -/
  | stopped (code : FaultCode)
  /-- The host is held and no agent is enabled: the wait never ends (42_transfer_engine.md R507, 60_exceptions.md R604).
  Raised by `advance`. Safe. -/
  | waitNeverEnds
  /-- A DMA beat at an address outside `0..T-1`, which the spec says does not exist (20_memory.md R200, R207). Raised by
  `dmaBeat`, never where the beat is enabled (R210). Safe. -/
  | noSuchTxByte (k : Nat)
deriving DecidableEq, Repr

/-- Why there is no step to take. -/
inductive Refusal where
  /-- No meaning yet, by the opcode table's mnemonic. Safe. -/
  | notModelled (mnemonic : String)
  /-- The command word is reserved (30_encoding.md R314, 60_exceptions.md R603). Raised by `hostStep`. Safe. -/
  | reservedWord (why : DecodeRefusal)
  /-- The parameters or reset arguments are out of range: no initial state (00_scope.md R10, 60_exceptions.md R603).
  Raised by `construct`. Safe. -/
  | illFormedConfig
  /-- A command given while the host is held, which the single-threaded host cannot do (10_state.md R110; log entry 13).
  Raised by every command's precondition, never by `step`. Safe. -/
  | hostHeld
  /-- The host has no further command and nothing is in flight (log entry 12). Raised by `advance`. Safe. -/
  | noCommand
  /-- No engine instance of that number (60_exceptions.md R619). Raised by `stepInstance`. Safe. -/
  | noSuchInstance
deriving DecidableEq, Repr

/-- The state right after reset, which is construction (70_reset_and_hazards.md R700). `fsm`, `inFlight`, `done`,
`dmaIdx`, `fault`, `hwait`, `wire` and the latch bytes are the spec's; `cfg`, `colors`, `bp1`, `raw` and `result`, which
it leaves unspecified, are named in log entries 2 to 6 (DESIGN CHOICE), the model's own fields in entries 7 and 8. -/
def State.reset : State where
  cfg := Config.atReset
  colors := List.replicate 3 ⟨0#8, 0#8, 0#8⟩
  bp1 := 1#9
  tx := []
  fsm := .idle
  inFlight := false
  done := false
  dmaIdx := 0
  fault := .none
  hwait := .run
  result := 0#24
  wire := []
  cmds := []
  sched := []
  turns := 0
  lead := 0

end Sys2Proof.Machine
end

