-- ==== Sys2Proof/Machine/Waveform.lean ====
section
/-! DEFINITION. The bit expander's functions (40_bit_expander.md R400 to R407) and the serial bits of a byte sequence. -/

namespace Sys2Proof.Machine

/-- `E(n)`: the 12-bit pattern of a nibble (40_bit_expander.md R400). -/
def nibblePattern (n : BitVec 4) : BitVec 12 :=
  0x924#12 ||| ((n.extractLsb' 0 1).setWidth 12 <<< 1) ||| ((n.extractLsb' 1 1).setWidth 12 <<< 4)
    ||| ((n.extractLsb' 2 1).setWidth 12 <<< 7) ||| ((n.extractLsb' 3 1).setWidth 12 <<< 10)

/-- `P(v)`: the 24-bit pattern of a channel, high nibble in the high half (40_bit_expander.md R402). -/
def channelPattern (v : Byte) : Pattern :=
  nibblePattern (v.extractLsb' 4 4) ++ nibblePattern (v.extractLsb' 0 4)

/-- Inversion of a pattern when INVERT = 1 (40_bit_expander.md R404). -/
def applyPolarity (c : Config) (q : Pattern) : Pattern := if c.invert then q ^^^ 0xFFFFFF#24 else q

/-- `ENC(v)`: the transmitted pattern (40_bit_expander.md R404). -/
def encPattern (c : Config) (v : Byte) : Pattern := applyPolarity c (channelPattern v)

/-- The three bytes of a pattern, first sent first (20_memory.md R204). -/
def packPattern (q : Pattern) : List Byte := [q.extractLsb' 16 8, q.extractLsb' 8 8, q.extractLsb' 0 8]

/-- `bytes3(v)` (40_bit_expander.md R405). -/
def bytes3 (c : Config) (v : Byte) : List Byte := packPattern (encPattern c v)

/-- `DEC(Q)`: data bit j is bit 3j+1 of the pattern with the polarity undone (40_bit_expander.md R407). -/
def decPattern (c : Config) (q : Pattern) : Byte :=
  let p := applyPolarity c q
  p.extractLsb' 22 1 ++ p.extractLsb' 19 1 ++ p.extractLsb' 16 1 ++ p.extractLsb' 13 1
    ++ p.extractLsb' 10 1 ++ p.extractLsb' 7 1 ++ p.extractLsb' 4 1 ++ p.extractLsb' 1 1

/-- `Q` is the encoding of some channel value: fixed ones set, fixed zeros clear (40_bit_expander.md R407). -/
def validPattern (c : Config) (q : Pattern) : Bool :=
  (applyPolarity c q &&& 0x924924#24 == 0x924924#24) && (applyPolarity c q &&& 0x249249#24 == 0#24)

/-- The serial bits of one byte, most significant first (20_memory.md R205). -/
def serialBits (b : Byte) : List Bool := [b[7], b[6], b[5], b[4], b[3], b[2], b[1], b[0]]

/-- The levels put on the line by a sequence of bytes, in order (10_state.md R112, 20_memory.md R205). -/
def lineBits (bs : List Byte) : List Bool := bs.flatMap serialBits

end Sys2Proof.Machine
end

