-- ==== Sys2Proof/Machine/Operands.lean ====
section
/-! DEFINITION. Operand forms: the pixel index, the brightness value, a colour as a result, a pixel's channel slots; and
the channel pipeline (41_frame_buffer.md R450 to R456). -/

namespace Sys2Proof.Machine

/-- `zext(idx) < N`, the range check of SET_COLOR and GET_COLOR (30_encoding.md R312). -/
def idxInRange (c : Config) (idx : PixelIdx) : Bool := decide (idx.toNat < c.n)

/-- Pixel `i` of the frame buffer (00_scope.md R15). The second value is for a list shorter than N, which no reachable
state has (log entry 17). -/
def State.colorAt (s : State) (i : Nat) : Color := s.colors.getD i ⟨0#8, 0#8, 0#8⟩

/-- The GET_COLOR result: red in 23..16, green in 15..8, blue in 7..0 (41_frame_buffer.md R453). -/
def packColor (col : Color) : Pattern := col.red ++ col.green ++ col.blue

/-- `zext_9(val) + 1`, the brightness register's value for a brightness (41_frame_buffer.md R455). -/
def brightnessPlusOne (val : Byte) : BitVec 9 := val.setWidth 9 + 1#9

/-- The channels of a colour in transmission order, slots 0, 1, 2 (30_encoding.md R303). -/
def slots (o : ColorOrder) (col : Color) : List Byte :=
  match o with
  | .grb => [col.green, col.red, col.blue]
  | .rgb => [col.red, col.green, col.blue]

/-- `S(v, bp1) = (v * bp1) >> 8`, exact, then narrowed to 8 bits (41_frame_buffer.md R450). -/
def scale (v : Byte) (bp1 : BitVec 9) : Byte := BitVec.ofNat 8 ((v.toNat * bp1.toNat) >>> 8)

/-- `C(x)`: the perceptual table when it is enabled (41_frame_buffer.md R452). -/
def correct (c : Config) (x : Byte) : Byte := if c.cieEnable then c.cieTable[x.toNat]'x.isLt else x

/-- `chan_out(v) = C(S(v, bp1))` (41_frame_buffer.md R454). -/
def chanOut (c : Config) (bp1 : BitVec 9) (v : Byte) : Byte := correct c (scale v bp1)

/-- `PIX(c)`: the nine bytes of a pixel (41_frame_buffer.md R456). -/
def pixelBytes (c : Config) (bp1 : BitVec 9) (col : Color) : List Byte :=
  (slots c.order col).flatMap fun v => bytes3 c (chanOut c bp1 v)

end Sys2Proof.Machine
end

