-- ==== Sys2Proof/Machine/Flags.lean ====
section
/-! DEFINITION. The flags and status fields: `done`, `in_flight`, `fsm`, `fault`, `hwait` (10_state.md R105 to R110, R117),
what commands test of them, and their numeric codes (R114, R600). -/

namespace Sys2Proof.Machine

/-- The precondition of every command: `fault = NONE` and `hwait = RUN`. -/
abbrev State.hostReady (s : State) : Prop := s.fault = .none ∧ s.hwait = .run

/-- `zext_24(done)`, the POLL_COMPLETE result (42_transfer_engine.md R508). -/
def doneWord (done : Bool) : Pattern := if done then 1#24 else 0#24

/-- Start of WRITE: `fsm <- PENDING; done <- 0` (42_transfer_engine.md R501). -/
def markPending (s : State) : State := { s with fsm := .pending, done := false }

/-- The issue: `dma_idx <- 0; in_flight <- 1; fsm <- INFLIGHT` (42_transfer_engine.md R501). -/
def markIssued (s : State) : State := { s with dmaIdx := 0, inFlight := true, fsm := .inflight }

/-- The completion event's writes: `done <- 1; in_flight <- 0; fsm <- IDLE` (42_transfer_engine.md R530). -/
def markComplete (s : State) : State := { s with done := true, inFlight := false, fsm := .idle }

/-- `hwait <- WAIT_DONE` (42_transfer_engine.md R504, R506). -/
def holdHost (s : State) : State := { s with hwait := .waitDone }

/-- `hwait <- RUN` (42_transfer_engine.md R510). -/
def releaseHost (s : State) : State := { s with hwait := .run }

/-- The code of a fault (60_exceptions.md R600). -/
def FaultCode.code : FaultCode → BitVec 2
  | .none => 0
  | .writeBusy => 1
  | .expandBusy => 2
  | .readRange => 3

/-- The code of `fsm` (10_state.md R114, for reference only). -/
def Fsm.code : Fsm → BitVec 2
  | .idle => 0
  | .pending => 1
  | .inflight => 2

/-- The code of ORDER (10_state.md R114, for reference only). -/
def orderCode : ColorOrder → BitVec 1
  | .grb => 0
  | .rgb => 1

end Sys2Proof.Machine
end

