-- ==== Sys2Proof/Machine/Ops.lean ====
section
/-! DEFINITION. The named operations: the transmit buffer as memory, raising a fault, the command precondition, the
expansion, and the issue of a transfer. -/

namespace Sys2Proof.Machine

/-! ### The transmit buffer -/

/-- What an unlisted byte of `tx` reads as: in `raw` 0x00 (DESIGN CHOICE, log entry 5), in the latch region LATCH_BYTE
(10_state.md R104); an address from T up does not exist (20_memory.md R200). -/
def Memory.unlisted (c : Config) (k : Nat) : Option Byte :=
  if k < rawLength c then some 0x00#8 else if k < txLength c then some (latchByte c) else none

/-- The byte listed at an address. -/
def Memory.lookup : Memory → Nat → Option Byte
  | [], _ => none
  | (a, b) :: m, k => if a = k then some b else Memory.lookup m k

/-- `MemRead(tx, k, 1)` (00_scope.md R15). No byte where the address does not exist. -/
def Memory.read (c : Config) (m : Memory) (k : Nat) : Option Byte :=
  match Memory.unlisted c k with
  | none => none
  | some b => some ((Memory.lookup m k).getD b)

/-- The list without an entry at `k`. -/
def Memory.erase : Memory → Nat → Memory
  | [], _ => []
  | (a, b) :: m, k => if a = k then m else (a, b) :: Memory.erase m k

/-- The list with the entry `(k, b)` in its place. -/
def Memory.insert : Memory → Nat → Byte → Memory
  | [], k, b => [(k, b)]
  | (a, x) :: m, k, b =>
    if a < k then (a, x) :: Memory.insert m k b
    else if a = k then (k, b) :: m
    else (k, b) :: (a, x) :: m

/-- `MemWrite(tx, k, 1, b)` (00_scope.md R15), keeping the canonical form. Only the expansion writes, at addresses below
9N, so a write outside `0..T-1` never occurs; it would change nothing (20_memory.md R210). -/
def Memory.write (c : Config) (m : Memory) (k : Nat) (b : Byte) : Memory :=
  match Memory.unlisted c k with
  | none => m
  | some d => if b = d then Memory.erase m k else Memory.insert m k b

/-- `MemWrite` of a run of bytes from address `base` up, one byte at a time (20_memory.md R206). -/
def Memory.writeRun (c : Config) : Memory → Nat → List Byte → Memory
  | m, _, [] => m
  | m, base, b :: bs => Memory.writeRun c (Memory.write c m base b) (base + 1) bs

/-- Every listed address is above `lo - 1`, they rise strictly, each exists, and no entry is what the unlisted address
reads as. -/
def Memory.wfFrom (c : Config) : Nat → Memory → Bool
  | _, [] => true
  | lo, (a, b) :: m =>
    decide (lo ≤ a) && decide (a < txLength c) && decide (Memory.unlisted c a ≠ some b) && Memory.wfFrom c (a + 1) m

/-- The canonical form: equal buffers are equal lists. -/
def Memory.wf (c : Config) (m : Memory) : Bool := Memory.wfFrom c 0 m

/-- Byte `k` of the state's transmit buffer. -/
def State.txByte (s : State) (k : Nat) : Option Byte := Memory.read s.cfg s.tx k

/-! ### Faults and preconditions -/

/-- `raise Fault(code)`: sets the sticky register, writes nothing else, ends the step (60_exceptions.md R601). The step
after it answers `Fault.stopped` (log entry 9). -/
def raiseFault (code : FaultCode) (s : State) : Host.Outcome State Fault Refusal := .next { s with fault := code }

/-- A command's precondition, `fault = NONE` and `hwait = RUN`, around its effect. After a fault no agent has a step
(60_exceptions.md R601); a held host issues no command (10_state.md R110; log entry 13). -/
def whenReady (s : State) (effect : Host.Outcome State Fault Refusal) : Host.Outcome State Fault Refusal :=
  if s.fault ≠ .none then .fault (.stopped s.fault)
  else if s.hwait = .waitDone then .refused .hostHeld
  else effect

/-! ### Expansion and issue -/

/-- The expansion of the whole frame: PIX(colors[0]) ++ … ++ PIX(colors[N-1]) (41_frame_buffer.md R457). -/
def frameData (s : State) : List Byte :=
  (List.range s.cfg.n).flatMap fun i => pixelBytes s.cfg s.bp1 (s.colorAt i)

/-- `FRAME(s)`: the data, then L latch bytes (42_transfer_engine.md R541). -/
def frame (s : State) : List Byte := frameData s ++ List.replicate (latchCount s.cfg) (latchByte s.cfg)

/-- `Expand()`: writes all of `raw`, from address 0, and nothing else (41_frame_buffer.md R457). -/
def expand (s : State) : State := { s with tx := Memory.writeRun s.cfg s.tx 0 (frameData s) }

/-- `WriteCore()` once the engine is not busy: pending, expansion, issue (42_transfer_engine.md R501). -/
def issueTransfer (s : State) : State := markIssued (expand (markPending s))

/-- `WriteCore()` (42_transfer_engine.md R501), and what follows it when it raises no fault. -/
def writeCore (s : State) (andThen : State → State) : Host.Outcome State Fault Refusal :=
  if s.inFlight then raiseFault .writeBusy s else .next (andThen (issueTransfer s))

/-- `emit(b)`: appends to `wire` (00_scope.md R15). -/
def emit (b : Byte) (s : State) : State := { s with wire := s.wire ++ [b] }

/-- DMA beat, where enabled (42_transfer_engine.md R520). -/
def dmaBeat (s : State) : Host.Outcome State Fault Refusal :=
  match s.txByte s.dmaIdx with
  | none => .fault (.noSuchTxByte s.dmaIdx)
  | some b => .next { emit b s with dmaIdx := s.dmaIdx + 1 }

/-- Completion event, where enabled (42_transfer_engine.md R530): it saves nothing and moves no control
(60_exceptions.md R611, R612). -/
def completionEvent (s : State) : Host.Outcome State Fault Refusal := .next (markComplete s)

/-- Host resume, where enabled (42_transfer_engine.md R510). -/
def hostResume (s : State) : Host.Outcome State Fault Refusal := .next (releaseHost s)

end Sys2Proof.Machine
end

