-- ==== Sys2Proof/Machine/BitExpander.lean ====
section
/-! DEFINITION. The bit expander's command: ENCODE_CHANNEL. -/

namespace Sys2Proof.Machine

/-- ENCODE_CHANNEL: `result <- ENC(val)`, no brightness, no correction (40_bit_expander.md R410). -/
def execEncodeChannel (val : Byte) (s : State) : Host.Outcome State Fault Refusal :=
  whenReady s (.next { s with result := encPattern s.cfg val })

end Sys2Proof.Machine
end

