-- ==== Sys2Proof/Machine/FrameBuffer.lean ====
section
/-! DEFINITION. The frame buffer's commands: SET_COLOR, GET_COLOR, SET_BRIGHTNESS, EXPAND_ALL. -/

namespace Sys2Proof.Machine

/-- SET_COLOR: stores the colour, or does nothing where the index is out of range (41_frame_buffer.md R451). -/
def execSetColor (idx : PixelIdx) (red green blue : Byte) (s : State) : Host.Outcome State Fault Refusal :=
  whenReady s
    (if idxInRange s.cfg idx then .next { s with colors := s.colors.set idx.toNat ⟨red, green, blue⟩ } else .next s)

/-- GET_COLOR: the stored colour, or the fault READ_RANGE (41_frame_buffer.md R453). -/
def execGetColor (idx : PixelIdx) (s : State) : Host.Outcome State Fault Refusal :=
  whenReady s
    (if idxInRange s.cfg idx then .next { s with result := packColor (s.colorAt idx.toNat) }
     else raiseFault .readRange s)

/-- SET_BRIGHTNESS: `bp1 <- zext_9(val) + 1` (41_frame_buffer.md R455). -/
def execSetBrightness (val : Byte) (s : State) : Host.Outcome State Fault Refusal :=
  whenReady s (.next { s with bp1 := brightnessPlusOne val })

/-- EXPAND_ALL: rewrites `raw`, or the fault EXPAND_BUSY (41_frame_buffer.md R458). -/
def execExpandAll (s : State) : Host.Outcome State Fault Refusal :=
  whenReady s (if s.inFlight then raiseFault .expandBusy s else .next (expand s))

end Sys2Proof.Machine
end

