-- ==== Sys2Proof/Machine/TransferEngine.lean ====
section
/-! DEFINITION. The transfer engine's commands: WRITE_NB, WRITE_B, WAIT_COMPLETE, POLL_COMPLETE. -/

namespace Sys2Proof.Machine

/-- WRITE_NB: `WriteCore()`, and the host goes on (42_transfer_engine.md R502). -/
def execWriteNb (s : State) : Host.Outcome State Fault Refusal :=
  whenReady s (writeCore s fun t => t)

/-- WRITE_B: `WriteCore()`, then the host is held until `done = 1` (42_transfer_engine.md R504). -/
def execWriteB (s : State) : Host.Outcome State Fault Refusal :=
  whenReady s (writeCore s holdHost)

/-- WAIT_COMPLETE: nothing where `done = 1`, else the host is held (42_transfer_engine.md R506). -/
def execWaitComplete (s : State) : Host.Outcome State Fault Refusal :=
  whenReady s (if s.done then .next s else .next (holdHost s))

/-- POLL_COMPLETE: `result <- zext_24(done)` (42_transfer_engine.md R508). -/
def execPollComplete (s : State) : Host.Outcome State Fault Refusal :=
  whenReady s (.next { s with result := doneWord s.done })

end Sys2Proof.Machine
end

