-- ==== Sys2Proof/Machine/Dispatch.lean ====
section
/-! DEFINITION. One arm per command, each one call of its meaning. -/

namespace Sys2Proof.Machine

def exec (i : Instr) (s : State) : Host.Outcome State Fault Refusal :=
  match i with
  | .encodeChannel val => Sys2Proof.Machine.execEncodeChannel val s
  | .setColor idx red green blue => Sys2Proof.Machine.execSetColor idx red green blue s
  | .getColor idx => Sys2Proof.Machine.execGetColor idx s
  | .setBrightness val => Sys2Proof.Machine.execSetBrightness val s
  | .expandAll => Sys2Proof.Machine.execExpandAll s
  | .writeNb => Sys2Proof.Machine.execWriteNb s
  | .writeB => Sys2Proof.Machine.execWriteB s
  | .waitComplete => Sys2Proof.Machine.execWaitComplete s
  | .pollComplete => Sys2Proof.Machine.execPollComplete s

end Sys2Proof.Machine
end

