-- ==== Sys2Proof/Machine/Agents.lean ====
section
/-! DEFINITION. The three agents (00_scope.md R16), when each is enabled, what its step does, and which of the enabled
ones goes next (60_exceptions.md R613). -/

namespace Sys2Proof.Machine

/-- The host has a step: its next command where it runs, the resume step where it is held and `done = 1`
(30_encoding.md R310, 42_transfer_engine.md R510). -/
def hostEnabled (s : State) : Bool :=
  decide (s.fault = .none) && (match s.hwait with | .run => !s.cmds.isEmpty | .waitDone => s.done)

/-- A DMA beat is enabled (42_transfer_engine.md R520). -/
def dmaEnabled (s : State) : Bool :=
  decide (s.fault = .none) && decide (s.fsm = .inflight) && decide (s.dmaIdx < txLength s.cfg)

/-- The completion event is enabled, that is, pending (42_transfer_engine.md R530, 60_exceptions.md R610). -/
def completionEnabled (s : State) : Bool :=
  decide (s.fault = .none) && decide (s.fsm = .inflight) && decide (s.dmaIdx = txLength s.cfg)

/-- Whether an agent has a step. -/
def agentEnabled (a : Agent) (s : State) : Bool :=
  match a with
  | .host => hostEnabled s
  | .dma => dmaEnabled s
  | .completion => completionEnabled s

/-- One round of the host's poll loop: POLL_COMPLETE, after which the host, who sees `result`, goes on if it is 1 and
polls again if not (42_transfer_engine.md R509). -/
def pollRound (rest : List HostAct) (s : State) : Host.Outcome State Fault Refusal :=
  match exec .pollComplete s with
  | .next t => .next { t with cmds := if t.result = 1#24 then rest else t.cmds }
  | .fault f => .fault f
  | .refused r => .refused r

/-- The host's step: the resume step where it is held, else its next command word, decoded and executed, or a round of
its poll loop. A reserved word is refused and the engine takes no step for it (30_encoding.md R314; log entry 10). -/
def hostStep (s : State) : Host.Outcome State Fault Refusal :=
  match s.hwait with
  | .waitDone => hostResume s
  | .run =>
    match s.cmds with
    | [] => .refused .noCommand
    | .pollUntilDone :: rest => pollRound rest s
    | .issue w :: rest =>
      match decode w with
      | .error why => .refused (.reservedWord why)
      | .ok i => exec i { s with cmds := rest }

/-- The step of an agent, where it is enabled. -/
def agentStep (a : Agent) (s : State) : Host.Outcome State Fault Refusal :=
  match a with
  | .host => hostStep s
  | .dma => dmaBeat s
  | .completion => completionEvent s

/-- The hardware agent that has a step: at most one of DMA and completion has. -/
def hardwareAgent (s : State) : Option Agent :=
  if dmaEnabled s then some .dma else if completionEnabled s then some .completion else none

/-- A choice between host and hardware: the schedule's next entry, and once it is used up the free value, which lets some
number of host steps go before each hardware step (60_exceptions.md R613, 42_transfer_engine.md R521; log entry 8). -/
def takeTurn (s : State) : Turn × State :=
  match s.sched with
  | t :: rest => (t, { s with sched := rest })
  | [] =>
    if s.lead < Config.freeLead s.turns then (.host, { s with lead := s.lead + 1 })
    else (.hardware, { s with turns := s.turns + 1, lead := 0 })

/-- No agent is enabled and no fault is set: a wait that never ends (60_exceptions.md R604), or a host with nothing more
to do (log entry 12). -/
def nothingEnabled (s : State) : Host.Outcome State Fault Refusal :=
  match s.hwait with
  | .waitDone => .fault .waitNeverEnds
  | .run => .refused .noCommand

/-- One step of one agent. -/
def advance (s : State) : Host.Outcome State Fault Refusal :=
  if s.fault ≠ .none then .fault (.stopped s.fault)
  else
    match hostEnabled s, hardwareAgent s with
    | false, none => nothingEnabled s
    | true, none => hostStep s
    | false, some a => agentStep a s
    | true, some a =>
      match takeTurn s with
      | (.host, t) => hostStep t
      | (.hardware, t) => agentStep a t

/-- The host's next command is `w`, before those it had, and the host's step is the next one: where a hardware agent
could go first, the schedule says the host does (log entry 7). -/
def issueNext (w : CmdWord) (s : State) : State :=
  { s with
    cmds := .issue w :: s.cmds
    sched := if (hardwareAgent s).isSome then .host :: s.sched else s.sched }

end Sys2Proof.Machine
end

