-- ==== Sys2Proof/Machine/Step.lean ====
section
/-! DEFINITION. The machine's step, and a state whose next step runs a given word. -/

namespace Sys2Proof.Machine

/-- One step of the engine: one atomic step of one enabled agent (00_scope.md R16). -/
def step (s : State) : Host.Outcome State Fault Refusal := advance s

/-- The state with the table word `w` of `nbits` bits as the host's next command. -/
def State.withFetchWord (s : State) (nbits w : Nat) : State := issueNext (tableWord nbits w) s

end Sys2Proof.Machine
end

