-- ==== Sys2Proof/Machine/Asm.lean ====
section
/-! DEFINITION. Assembler syntax (30_encoding.md R317): a mnemonic and operands written as decimal or hexadecimal numbers. -/

namespace Sys2Proof.Machine

/-- The nine mnemonics (30_encoding.md R313). -/
inductive Mnemonic where
  | encodeChannel
  | setColor
  | getColor
  | setBrightness
  | expandAll
  | writeNb
  | writeB
  | waitComplete
  | pollComplete
deriving DecidableEq, Repr

/-- A number as it is written, digits left to right: decimal, or hexadecimal after `0x`. -/
inductive AsmNumber where
  | dec (digits : List (Fin 10))
  | hex (digits : List (Fin 16))
deriving DecidableEq, Repr

/-- The number written. -/
def AsmNumber.value : AsmNumber → Nat
  | .dec ds => ds.foldl (fun n d => 10 * n + d.val) 0
  | .hex ds => ds.foldl (fun n d => 16 * n + d.val) 0

/-- A number has at least one digit. -/
def AsmNumber.wf : AsmNumber → Bool
  | .dec ds => !ds.isEmpty
  | .hex ds => !ds.isEmpty

/-- A command as it is written: the mnemonic, then its operands separated by commas. -/
structure AsmLine where
  mnemonic : Mnemonic
  operands : List AsmNumber
deriving DecidableEq, Repr

/-- The widths of a mnemonic's operands in the order they are written (30_encoding.md R312, R317). -/
def Mnemonic.operandWidths : Mnemonic → List Nat
  | .encodeChannel => [8]
  | .setColor => [16, 8, 8, 8]
  | .getColor => [16]
  | .setBrightness => [8]
  | .expandAll => []
  | .writeNb => []
  | .writeB => []
  | .waitComplete => []
  | .pollComplete => []

/-- Each operand is a number that fits its field (a wider one is refused: DESIGN CHOICE, log entry 18). -/
def operandsFit : List AsmNumber → List Nat → Bool
  | [], [] => true
  | x :: xs, w :: ws => x.wf && decide (x.value < 2 ^ w) && operandsFit xs ws
  | [], _ :: _ => false
  | _ :: _, [] => false

/-- The line has the operands its mnemonic takes, each a number that fits its field. -/
def AsmLine.wf (l : AsmLine) : Bool := operandsFit l.operands l.mnemonic.operandWidths

/-- The command a mnemonic and its operands' values spell; none where their number is wrong. -/
def buildInstr (m : Mnemonic) (vs : List Nat) : Option Instr :=
  match m, vs with
  | .encodeChannel, [v] => some (.encodeChannel (BitVec.ofNat 8 v))
  | .setColor, [i, r, g, b] => some (.setColor (BitVec.ofNat 16 i) (BitVec.ofNat 8 r) (BitVec.ofNat 8 g) (BitVec.ofNat 8 b))
  | .getColor, [i] => some (.getColor (BitVec.ofNat 16 i))
  | .setBrightness, [v] => some (.setBrightness (BitVec.ofNat 8 v))
  | .expandAll, [] => some .expandAll
  | .writeNb, [] => some .writeNb
  | .writeB, [] => some .writeB
  | .waitComplete, [] => some .waitComplete
  | .pollComplete, [] => some .pollComplete
  | _, _ => none

/-- The command a line spells; none where it is ill formed. -/
def assemble (l : AsmLine) : Option Instr :=
  if l.wf then buildInstr l.mnemonic (l.operands.map AsmNumber.value) else none

/-- The mnemonic of a command. -/
def mnemonicOf : Instr → Mnemonic
  | .encodeChannel _ => .encodeChannel
  | .setColor _ _ _ _ => .setColor
  | .getColor _ => .getColor
  | .setBrightness _ => .setBrightness
  | .expandAll => .expandAll
  | .writeNb => .writeNb
  | .writeB => .writeB
  | .waitComplete => .waitComplete
  | .pollComplete => .pollComplete

/-- The four hexadecimal digits of a number below 65536, high digit first. -/
def hexNumber (n : Nat) : AsmNumber :=
  .hex [Fin.ofNat 16 (n / 4096), Fin.ofNat 16 (n / 256), Fin.ofNat 16 (n / 16), Fin.ofNat 16 n]

/-- A command written out, its operands in hexadecimal (30_encoding.md R317). -/
def disassemble (i : Instr) : AsmLine where
  mnemonic := mnemonicOf i
  operands :=
    match i with
    | .encodeChannel v => [hexNumber v.toNat]
    | .setColor i r g b => [hexNumber i.toNat, hexNumber r.toNat, hexNumber g.toNat, hexNumber b.toNat]
    | .getColor i => [hexNumber i.toNat]
    | .setBrightness v => [hexNumber v.toNat]
    | .expandAll => []
    | .writeNb => []
    | .writeB => []
    | .waitComplete => []
    | .pollComplete => []

end Sys2Proof.Machine
end

