-- ==== Sys2Proof/Machine/Fleet.lean ====
section
/-! DEFINITION. Several engine instances: independent, each with its own state (60_exceptions.md R619). -/

namespace Sys2Proof.Machine

/-- A step of instance `k`: its own step on its own state, the others as they were (log entry 20). -/
def stepInstance (k : Nat) (fleet : List State) : Host.Outcome (List State) Fault Refusal :=
  match fleet[k]? with
  | none => .refused .noSuchInstance
  | some s =>
    match step s with
    | .next t => .next (fleet.set k t)
    | .fault f => .fault f
    | .refused r => .refused r

end Sys2Proof.Machine
end

