-- ==== Sys2Proof/Machine/Construct.lean ====
section
/-! DEFINITION. Construction, which is reset (70_reset_and_hazards.md R700), for all parameters and reset arguments. -/

namespace Sys2Proof.Machine

/-- The reset arguments: the values the spec leaves unspecified (10_state.md R102, R103, R104, R111). -/
structure InitArgs where
  /-- `INIT_COLORS`. -/
  colors : List Color
  /-- `INIT_BRIGHTNESS`. -/
  brightness : Byte
  /-- `INIT_RAW`. -/
  raw : List Byte
  /-- The unspecified first value of `result`. -/
  result : Pattern
deriving DecidableEq, Repr

/-- One colour a pixel, one byte for each of `raw`. -/
def InitArgs.fit (a : InitArgs) (c : Config) : Bool :=
  decide (a.colors.length = c.n) && decide (a.raw.length = rawLength c)

/-- The state the table of 70_reset_and_hazards.md R700 gives. The host's commands and schedule are then placed from
outside (log entries 7, 8). -/
def constructed (c : Config) (a : InitArgs) : State where
  cfg := c
  colors := a.colors
  bp1 := brightnessPlusOne a.brightness
  tx := Memory.writeRun c [] 0 a.raw
  fsm := .idle
  inFlight := false
  done := false
  dmaIdx := 0
  fault := .none
  hwait := .run
  result := a.result
  wire := []
  cmds := []
  sched := []
  turns := 0
  lead := 0

/-- Construction: refused for an ill-formed configuration (00_scope.md R10), and for argument lists of the wrong length
(log entry 19). -/
def construct (c : Config) (a : InitArgs) : Host.Outcome State Fault Refusal :=
  if c.wf && a.fit c then .next (constructed c a) else .refused .illFormedConfig

/-- The arguments of the instance that `State.reset` is (DESIGN CHOICE, log entries 3 to 6). -/
def InitArgs.atReset : InitArgs where
  colors := List.replicate 3 ⟨0#8, 0#8, 0#8⟩
  brightness := 0#8
  raw := List.replicate 27 0#8
  result := 0#24

end Sys2Proof.Machine
end

