-- ==== Sys2Proof/Safety.lean ====
section
/-! DEFINITION. What every reachable state of an engine instance satisfies, and runs under it. -/

namespace Sys2Proof.Machine

/-- The invariant of the engine at every step boundary. Each field names the rule that states it. -/
structure State.Inv (s : State) : Prop where
  /-- The configuration is well formed (00_scope.md R10). -/
  cfgWf : s.cfg.wf = true
  /-- One colour a pixel (10_state.md R102). -/
  colorsLength : s.colors.length = s.cfg.n
  /-- `bp1` holds a legal value, 1 to 256 (10_state.md R103). -/
  bp1Pos : 1 ≤ s.bp1.toNat
  bp1Le : s.bp1.toNat ≤ 256
  /-- The transmit buffer is in its canonical form. -/
  txWf : Memory.wf s.cfg s.tx = true
  /-- The latch bytes hold LATCH_BYTE from construction and never change (10_state.md R104). -/
  latchKept : ∀ k, rawLength s.cfg ≤ k → k < txLength s.cfg → s.txByte k = some (latchByte s.cfg)
  /-- PENDING is never the state between two steps (10_state.md R105). -/
  notPending : s.fsm ≠ .pending
  /-- `in_flight = 1` exactly when `fsm = INFLIGHT` (10_state.md R106). -/
  inFlightIff : s.inFlight = true ↔ s.fsm = .inflight
  /-- `dma_idx` is in [0, T] (10_state.md R108). -/
  dmaIdxLe : s.dmaIdx ≤ txLength s.cfg
  /-- `done` is clear while a transfer is in flight (42_transfer_engine.md R501, R530). -/
  doneClear : s.fsm = .inflight → s.done = false
  /-- `done` set means that the last transfer moved all its bytes (20_memory.md R211 item c). -/
  doneAll : s.done = true → s.dmaIdx = txLength s.cfg
  /-- `done = 0` and `fsm = IDLE` only between construction and the first WRITE (42_transfer_engine.md R507). -/
  idleFresh : s.fsm = .idle → s.done = false → s.wire = [] ∧ s.dmaIdx = 0
  /-- The bytes of the transfer in flight that were moved are the last ones on `wire` (20_memory.md R211 items a, b). -/
  wireTail : s.fsm = .inflight →
    ∃ sent, s.wire = sent ++ (List.range s.dmaIdx).map fun k => (s.txByte k).getD 0#8

/-- The state after `k` steps is `t`: no step on the way stopped. -/
def RunsTo (k : Nat) (s t : State) : Prop := Sys2Proof.core.run k s = .next t

end Sys2Proof.Machine
end

