-- ==== Sys2Proof/Certificates/Slice0/Obligations.lean ====
section
/-! DEFINITION. The statements about the engine, from the numbered rules of spec/. -/

namespace Sys2Proof.Claims

open Sys2Proof.Machine

/-- The number a command's word is, put together from its operands by place value (30_encoding.md R311). -/
def placeValue : Instr → Nat
  | .encodeChannel v => 0x01 + 2 ^ 8 * v.toNat
  | .setColor i r g b => 0x02 + 2 ^ 8 * i.toNat + 2 ^ 24 * r.toNat + 2 ^ 32 * g.toNat + 2 ^ 40 * b.toNat
  | .getColor i => 0x03 + 2 ^ 8 * i.toNat
  | .setBrightness v => 0x04 + 2 ^ 8 * v.toNat
  | .expandAll => 0x05
  | .writeNb => 0x06
  | .writeB => 0x07
  | .waitComplete => 0x08
  | .pollComplete => 0x09

/-- The lowest reserved bit of each opcode's format (30_encoding.md R311); none for a reserved opcode. -/
def reservedFrom (op : Byte) : Option Nat :=
  if op = 0x01#8 then some 16 else if op = 0x02#8 then some 48 else if op = 0x03#8 then some 24
  else if op = 0x04#8 then some 16
  else if op = 0x05#8 ∨ op = 0x06#8 ∨ op = 0x07#8 ∨ op = 0x08#8 ∨ op = 0x09#8 then some 8 else none

/-- The serial bits a data bit becomes, `1 d 0`, each complemented when INVERT = 1 (30_encoding.md R300, R305). -/
def triple (invert d : Bool) : List Bool := [xor invert true, xor invert d, xor invert false]

/-- A command's operands as numbers, in the order they are written (30_encoding.md R317). -/
def operandValues : Instr → List Nat
  | .encodeChannel v => [v.toNat]
  | .setColor i r g b => [i.toNat, r.toNat, g.toNat, b.toNat]
  | .getColor i => [i.toNat]
  | .setBrightness v => [v.toNat]
  | .expandAll => []
  | .writeNb => []
  | .writeB => []
  | .waitComplete => []
  | .pollComplete => []

/-- The state a wait for the transfer in flight, or for one that is complete, ends in, but for `result` and the model's own
fields: every byte of `tx` from `dma_idx` up has gone to `wire`. -/
def afterTransfer (s : State) : State :=
  { s with
    wire := s.wire ++ (List.range' s.dmaIdx (txLength s.cfg - s.dmaIdx)).map fun k => (s.txByte k).getD 0#8
    dmaIdx := txLength s.cfg
    done := true
    inFlight := false
    fsm := .idle }

/-- Commands executed one after another, with no other agent's step between them. -/
def runCommands : List Instr → State → Host.Outcome State Fault Refusal
  | [], s => .next s
  | i :: is, s =>
    match exec i s with
    | .next t => runCommands is t
    | .fault f => .fault f
    | .refused r => .refused r

/-- The engine is idle, not faulted, and its host runs: the start of 42_transfer_engine.md R541. -/
def IdleAndReady (s : State) : Prop := s.fault = .none ∧ s.fsm = .idle ∧ s.hwait = .run

end Sys2Proof.Claims

open Sys2Proof Sys2Proof.Machine Sys2Proof.Claims

/-! ### Encoding -/

/-- Decoding and encoding are inverse: decoding an encoded command gives it back, with every operand at every value, and a
word that decodes to a command is that command's encoding (30_encoding.md R311, R313, R316). -/
def Obligations.DecodeAndEncodeAreInverse : Prop :=
  (∀ i : Instr, decode (encode i) = .ok i) ∧ (∀ (w : CmdWord) (i : Instr), decode w = .ok i → encode i = w)

/-- 30_encoding.md R311, R312: each command's word, put together by place value from its unsigned operands, is its
encoding and decodes to it. -/
def Obligations.WordsByPlaceValueDecode : Prop :=
  ∀ i : Instr, placeValue i < 2 ^ 64 ∧ encode i = BitVec.ofNat 64 (placeValue i) ∧
    decode (BitVec.ofNat 64 (placeValue i)) = .ok i

/-- The decoder accepts exactly the words of the nine rows of the opcode table, and no word is two rows'. -/
def Obligations.DecoderAcceptsExactlyTheTableRows : Prop :=
  (∀ w : CmdWord, (∃ i, decode w = .ok i) ↔ ∃ r ∈ opcodeTable, r.matches w = true) ∧
  (∀ w : CmdWord, ∀ r ∈ opcodeTable, ∀ r' ∈ opcodeTable, r.matches w = true → r'.matches w = true → r = r')

/-- 30_encoding.md R314: a reserved opcode and a non-zero reserved bit are refused by the decoder under their own names.
A host whose next word is reserved never executes it: every step that goes on is a hardware agent's and leaves the word
where it is, and each step that is the host's, whether a transfer is in flight or not, is the refusal, after which the run
stays refused. That the run's mark is the refused outcome is the model's choice (log entry 10), as is the schedule (log
entry 8). -/
def Obligations.ReservedWordsAreRefusedAndNeverExecuted : Prop :=
  (∀ w : CmdWord, opField w = 0x00#8 ∨ 0x0A#8 ≤ opField w → decode w = .error (.reservedOpcode (opField w))) ∧
  (∀ (w : CmdWord) (lo : Nat), reservedFrom (opField w) = some lo → 2 ^ lo ≤ w.toNat →
    decode w = .error (.reservedBits (opField w))) ∧
  (∀ (s : State) (w : CmdWord) (rest : List HostAct) (why : DecodeRefusal),
    s.hostReady → s.cmds = .issue w :: rest → decode w = .error why →
      (hardwareAgent s = none ∨ (∃ sc, s.sched = .host :: sc) ∨
          s.sched = [] ∧ s.lead < Config.freeLead s.turns →
        step s = .refused (.reservedWord why) ∧ ∀ k, Sys2Proof.core.run (k + 1) s = .refused (.reservedWord why)) ∧
      ∀ t, step s = .next t → t.cmds = s.cmds ∧ ∃ a sc tu ld, a ≠ .host ∧
        agentStep a { s with sched := sc, turns := tu, lead := ld } = .next t)

/-- 30_encoding.md R318: the spec's example words, each written out, decode as it says. -/
def Obligations.SpecExampleWordsDecode : Prop :=
  decode 0x00000000FF000102#64 = .ok (.setColor 1#16 255#8 0#8 0#8) ∧
  decode 0x0000332211123402#64 = .ok (.setColor 0x1234#16 0x11#8 0x22#8 0x33#8) ∧
  decode 0x0000000000000203#64 = .ok (.getColor 2#16) ∧
  decode 0x000000000000FF04#64 = .ok (.setBrightness 255#8) ∧
  decode 0x000000000000A501#64 = .ok (.encodeChannel 0xA5#8) ∧
  decode 0x0000000000000007#64 = .ok .writeB ∧
  decode 0x0000000000000106#64 = .error (.reservedBits 0x06#8)

/-- 30_encoding.md R317: a command written out assembles to itself; a line assembles to a command exactly when it has the
command's mnemonic and its operands have the command's values; and a number's value is that of its digits, decimal or
hexadecimal. That a line with a wrong number of operands, an operand too wide for its field or a number without digits
does not assemble is the model's choice (log entry 18). -/
def Obligations.AssemblerTextRoundTrips : Prop :=
  (∀ i : Instr, (disassemble i).wf = true ∧ assemble (disassemble i) = some i) ∧
  (∀ l : AsmLine, (assemble l).isSome = true ↔
    l.operands.length = l.mnemonic.operandWidths.length ∧
      ∀ p ∈ l.operands.zip l.mnemonic.operandWidths, p.1.wf = true ∧ p.1.value < 2 ^ p.2) ∧
  (∀ (l : AsmLine) (i : Instr), assemble l = some i ↔
    l.mnemonic = mnemonicOf i ∧ (∀ x ∈ l.operands, x.wf = true) ∧ l.operands.map AsmNumber.value = operandValues i) ∧
  (∀ ds : List (Fin 10), (AsmNumber.dec ds).value = Nat.ofDigits 10 (ds.reverse.map Fin.val)) ∧
  (∀ ds : List (Fin 16), (AsmNumber.hex ds).value = Nat.ofDigits 16 (ds.reverse.map Fin.val))

/-! ### Bit expander -/

/-- 30_encoding.md R300, R305, 20_memory.md R205: the line carries a channel's data bits 7 down to 0, each as the triple
`1 d 0`, complemented when INVERT = 1; the latch byte is then 0xFF. -/
def Obligations.LineCarriesATripleForEachDataBit : Prop :=
  (∀ (c : Config) (v : Byte), lineBits (bytes3 c v) =
    triple c.invert v[7] ++ triple c.invert v[6] ++ triple c.invert v[5] ++ triple c.invert v[4] ++
    triple c.invert v[3] ++ triple c.invert v[2] ++ triple c.invert v[1] ++ triple c.invert v[0]) ∧
  (∀ c : Config, latchByte c = if c.invert then 0xFF#8 else 0x00#8)

/-- 30_encoding.md R301, R302: the place of each bit of a channel's pattern and of a nibble's, the masks of the fixed ones,
fixed zeros and data bits, the nibbles' halves, and the order in which the bits leave, bit 23 first. -/
def Obligations.ChannelPatternLayout : Prop :=
  (∀ (v : Byte) (j : Nat), j < 8 →
    (channelPattern v).getLsbD (3 * j + 2) = true ∧ (channelPattern v).getLsbD (3 * j + 1) = v.getLsbD j ∧
    (channelPattern v).getLsbD (3 * j) = false) ∧
  (∀ v : Byte, channelPattern v &&& 0x924924#24 = 0x924924#24 ∧ channelPattern v &&& 0x249249#24 = 0#24) ∧
  (0x924924#24 &&& 0x249249#24 = 0#24 ∧ 0x924924#24 &&& 0x492492#24 = 0#24 ∧ 0x249249#24 &&& 0x492492#24 = 0#24 ∧
    0x924924#24 ||| 0x249249#24 ||| 0x492492#24 = 0xFFFFFF#24) ∧
  (∀ (n : BitVec 4) (i : Nat), i < 4 →
    (nibblePattern n).getLsbD (3 * i + 2) = true ∧ (nibblePattern n).getLsbD (3 * i + 1) = n.getLsbD i ∧
    (nibblePattern n).getLsbD (3 * i) = false) ∧
  (∀ v : Byte, (channelPattern v).extractLsb' 12 12 = nibblePattern (v.extractLsb' 4 4) ∧
    (channelPattern v).extractLsb' 0 12 = nibblePattern (v.extractLsb' 0 4)) ∧
  (∀ (v : Byte) (k : Nat), k < 24 →
    (lineBits (packPattern (channelPattern v)))[k]? = some ((channelPattern v).getLsbD (23 - k)))

/-- 40_bit_expander.md R402: the two forms of P agree; and, from 95_test_vectors.md 2.1, P is strictly increasing. -/
def Obligations.ChannelPatternIsBasePlusDataBits : Prop :=
  (∀ v : Byte, channelPattern v = nibblePattern (v.extractLsb' 4 4) ++ nibblePattern (v.extractLsb' 0 4)) ∧
  (∀ v : Byte, (channelPattern v).toNat =
    0x924924 ||| ((List.range 8).map fun j => (v.getLsbD j).toNat * 2 ^ (3 * j + 1)).sum) ∧
  (∀ v v' : Byte, v < v' → channelPattern v < channelPattern v')

/-- 40_bit_expander.md R407: DEC undoes ENC, ENC is injective, and the validity test holds of exactly the encodings. -/
def Obligations.DecodingTheWaveformUndoesEncoding : Prop :=
  (∀ (c : Config) (q : Pattern) (j : Nat), j < 8 →
    (decPattern c q).getLsbD j = xor c.invert (q.getLsbD (3 * j + 1))) ∧
  (∀ (c : Config) (v : Byte), decPattern c (encPattern c v) = v) ∧
  (∀ (c : Config) (v v' : Byte), encPattern c v = encPattern c v' → v = v') ∧
  (∀ (c : Config) (q : Pattern), validPattern c q = true ↔ ∃ v, encPattern c v = q) ∧
  (∀ (c : Config) (q q' : Pattern), q' = (if c.invert then q ^^^ 0xFFFFFF#24 else q) →
    ((q' &&& 0x924924#24 = 0x924924#24 ∧ q' &&& 0x249249#24 = 0#24) ↔ ∃ v, encPattern c v = q))

/-- 40_bit_expander.md R404, R405: polarity and packing. -/
def Obligations.TransmittedBytesOfAChannel : Prop :=
  (∀ (c : Config) (v : Byte), encPattern c v = if c.invert then channelPattern v ^^^ 0xFFFFFF#24 else channelPattern v) ∧
  (∀ (c : Config) (v : Byte), ∃ b0 b1 b2 : Byte, bytes3 c v = [b0, b1, b2] ∧
    (encPattern c v).toNat = b0.toNat * 65536 + b1.toNat * 256 + b2.toNat)

/-- 40_bit_expander.md R410, whole: ENCODE_CHANNEL's encoding, effect, corner cases and example. -/
def Obligations.EncodeChannelReturnsTheTransmittedPattern : Prop :=
  (∀ v : Byte, opField (encode (.encodeChannel v)) = 0x01#8 ∧ valField (encode (.encodeChannel v)) = v ∧
    (encode (.encodeChannel v)).toNat < 2 ^ 16) ∧
  (∀ (v : Byte) (s : State), s.hostReady →
    exec (.encodeChannel v) s = .next { s with result := encPattern s.cfg v }) ∧
  (∀ c : Config, c.invert = false → encPattern c 0#8 = 0x924924#24 ∧ encPattern c 255#8 = 0xDB6DB6#24 ∧
    encPattern c 0xA5#8 = 0xD349A6#24 ∧ bytes3 c 0xA5#8 = [0xD3#8, 0x49#8, 0xA6#8]) ∧
  (∀ c : Config, c.invert = true → encPattern c 0#8 = 0x6DB6DB#24 ∧ encPattern c 255#8 = 0x249249#24)

/-! ### Frame buffer -/

/-- 41_frame_buffer.md R450, R461: the scaling formula for every channel and legal `bp1`, no overflow, the identity at
full brightness, and 0 at brightness 0 (90_conflicts.md C1). -/
def Obligations.BrightnessScalingFormula : Prop :=
  (∀ (v : Byte) (bp1 : BitVec 9), bp1.toNat ≤ 256 → v.toNat * bp1.toNat ≤ 65280 ∧
    (scale v bp1).toNat = v.toNat * bp1.toNat / 256) ∧
  (∀ v b : Byte, (scale v (brightnessPlusOne b)).toNat = v.toNat * (b.toNat + 1) / 256) ∧
  (∀ v : Byte, scale v 256#9 = v ∧ scale v 1#9 = 0#8)

/-- 95_test_vectors.md 3.1 (from 41_frame_buffer.md R450): scaling is monotone in the channel and in the brightness, and
channel 255 is sent as the brightness. -/
def Obligations.BrightnessScalingIsMonotone : Prop :=
  (∀ (v v' : Byte) (bp1 bp1' : BitVec 9), v ≤ v' → bp1 ≤ bp1' → bp1'.toNat ≤ 256 → scale v bp1 ≤ scale v' bp1') ∧
  (∀ b : Byte, scale 255#8 (brightnessPlusOne b) = b)

/-- 41_frame_buffer.md R452, R454: the table where CIE_ENABLE = 1, for every table, after scaling. -/
def Obligations.ChannelSentIsScaledThenCorrected : Prop :=
  (∀ (c : Config) (x : Byte), correct c x = if c.cieEnable then c.cieTable[x.toNat]'x.isLt else x) ∧
  (∀ (c : Config) (bp1 : BitVec 9) (v : Byte), c.cieEnable = false → chanOut c bp1 v = scale v bp1) ∧
  (∀ (c : Config) (bp1 : BitVec 9) (v : Byte), c.cieEnable = true →
    chanOut c bp1 v = c.cieTable[(scale v bp1).toNat]'(scale v bp1).isLt)

/-- 41_frame_buffer.md R456, 30_encoding.md R303: the nine bytes of a pixel in each channel order. -/
def Obligations.PixelIsThreeChannelsInWireOrder : Prop :=
  ∀ (c : Config) (bp1 : BitVec 9) (col : Color), (pixelBytes c bp1 col).length = 9 ∧
    (c.order = .grb → pixelBytes c bp1 col =
      bytes3 c (chanOut c bp1 col.green) ++ bytes3 c (chanOut c bp1 col.red) ++ bytes3 c (chanOut c bp1 col.blue)) ∧
    (c.order = .rgb → pixelBytes c bp1 col =
      bytes3 c (chanOut c bp1 col.red) ++ bytes3 c (chanOut c bp1 col.green) ++ bytes3 c (chanOut c bp1 col.blue))

/-- 20_memory.md R202: after an expansion, slot k of pixel i stands at `9*i + 3*k` and holds the three bytes of channel
ORDER[k]. -/
def Obligations.RawLayoutAfterExpansion : Prop :=
  (∀ (s : State) (i k j : Nat) (v : Byte), Memory.wf s.cfg s.tx = true → i < s.cfg.n → k < 3 → j < 3 →
    (slots s.cfg.order (s.colorAt i))[k]? = some v →
      (expand s).txByte (9 * i + 3 * k + j) = (bytes3 s.cfg (chanOut s.cfg s.bp1 v))[j]?) ∧
  (∀ col : Color, slots .grb col = [col.green, col.red, col.blue] ∧ slots .rgb col = [col.red, col.green, col.blue])

/-- 41_frame_buffer.md R457: the expansion writes all `9*N` bytes of `raw`, keeps the canonical form, and writes nothing
else. -/
def Obligations.ExpansionWritesRawAndNothingElse : Prop :=
  ∀ s : State, Memory.wf s.cfg s.tx = true →
    (∀ i m, i < s.cfg.n → m < 9 → (expand s).txByte (9 * i + m) = (pixelBytes s.cfg s.bp1 (s.colorAt i))[m]?) ∧
    (∀ k, rawLength s.cfg ≤ k → (expand s).txByte k = s.txByte k) ∧
    expand s = { s with tx := (expand s).tx } ∧ Memory.wf s.cfg (expand s).tx = true

/-- 41_frame_buffer.md R459: EXPAND_ALL twice with no SET_COLOR or SET_BRIGHTNESS between leaves what once leaves, and
`raw` afterwards is a function of the colours, the brightness and the parameters alone. -/
def Obligations.ExpandingTwiceIsExpandingOnce : Prop :=
  (∀ s t : State, Memory.wf s.cfg s.tx = true → s.inFlight = false → exec .expandAll s = .next t →
    exec .expandAll t = .next t) ∧
  (∀ s s' : State, Memory.wf s.cfg s.tx = true → Memory.wf s'.cfg s'.tx = true → s.cfg = s'.cfg →
    s.colors = s'.colors → s.bp1 = s'.bp1 → ∀ k, k < rawLength s.cfg → (expand s).txByte k = (expand s').txByte k)

/-- 41_frame_buffer.md R451, whole: SET_COLOR's encoding, effect, frame and corner cases. -/
def Obligations.SetColorStoresOnePixelOrDoesNothing : Prop :=
  (∀ (x : PixelIdx) (r g b : Byte), opField (encode (.setColor x r g b)) = 0x02#8 ∧
    idxField (encode (.setColor x r g b)) = x ∧ redField (encode (.setColor x r g b)) = r ∧
    greenField (encode (.setColor x r g b)) = g ∧ blueField (encode (.setColor x r g b)) = b ∧
    (encode (.setColor x r g b)).toNat < 2 ^ 48) ∧
  (∀ (x : PixelIdx) (r g b : Byte) (s : State), s.hostReady → x.toNat < s.cfg.n → s.colors.length = s.cfg.n →
    ∃ t, exec (.setColor x r g b) s = .next t ∧ t = { s with colors := t.colors } ∧
      t.colors.length = s.cfg.n ∧ t.colorAt x.toNat = ⟨r, g, b⟩ ∧ (∀ j, j ≠ x.toNat → t.colorAt j = s.colorAt j) ∧
      exec (.setColor x r g b) t = .next t) ∧
  (∀ (x : PixelIdx) (r g b : Byte) (s : State), s.hostReady → s.cfg.n ≤ x.toNat →
    exec (.setColor x r g b) s = .next s)

/-- 41_frame_buffer.md R453: GET_COLOR's encoding and result, and where it traps. -/
def Obligations.GetColorReturnsTheStoredColour : Prop :=
  (∀ x : PixelIdx, opField (encode (.getColor x)) = 0x03#8 ∧ idxField (encode (.getColor x)) = x ∧
    (encode (.getColor x)).toNat < 2 ^ 24) ∧
  (∀ (x : PixelIdx) (s : State), s.hostReady → x.toNat < s.cfg.n →
    exec (.getColor x) s = .next { s with result := packColor (s.colorAt x.toNat) }) ∧
  (∀ (x : PixelIdx) (s : State), s.hostReady → s.cfg.n ≤ x.toNat →
    exec (.getColor x) s = .next { s with fault := .readRange }) ∧
  (∀ col : Color, (packColor col).toNat = col.red.toNat * 65536 + col.green.toNat * 256 + col.blue.toNat)

/-- 41_frame_buffer.md R460, whole: a colour set and read back, at once or after an expansion, is the colour set, and one
set out of range leaves `colors` unchanged. -/
def Obligations.SetColorThenGetColorRoundTrips : Prop :=
  (∀ (x : PixelIdx) (r g b : Byte) (s : State), s.hostReady → s.colors.length = s.cfg.n → x.toNat < s.cfg.n →
    ∃ t, exec (.setColor x r g b) s = .next t ∧
      exec (.getColor x) t = .next { t with result := packColor ⟨r, g, b⟩ } ∧
      (s.inFlight = false → ∃ u, exec .expandAll t = .next u ∧
        exec (.getColor x) u = .next { u with result := packColor ⟨r, g, b⟩ })) ∧
  (∀ (x : PixelIdx) (r g b : Byte) (s : State), s.hostReady → s.cfg.n ≤ x.toNat →
    ∃ t, exec (.setColor x r g b) s = .next t ∧ t.colors = s.colors)

/-- 41_frame_buffer.md R455, whole: SET_BRIGHTNESS's encoding, effect and frame, its extremes and its example. -/
def Obligations.SetBrightnessStoresBrightnessPlusOne : Prop :=
  (∀ v : Byte, opField (encode (.setBrightness v)) = 0x04#8 ∧ valField (encode (.setBrightness v)) = v ∧
    (encode (.setBrightness v)).toNat < 2 ^ 16) ∧
  (∀ (v : Byte) (s : State), s.hostReady →
    ∃ t, exec (.setBrightness v) s = .next t ∧ t = { s with bp1 := t.bp1 } ∧ t.bp1.toNat = v.toNat + 1) ∧
  (∀ x : Byte, scale x (brightnessPlusOne 255#8) = x ∧ scale x (brightnessPlusOne 0#8) = 0#8) ∧
  (brightnessPlusOne 127#8 = 128#9 ∧ scale 200#8 128#9 = 100#8)

/-- 41_frame_buffer.md R458, whole: EXPAND_ALL's encoding, effect, frame, fault and example. -/
def Obligations.ExpandAllRewritesRaw : Prop :=
  encode .expandAll = 0x0000000000000005#64 ∧
  (∀ s : State, s.hostReady → s.inFlight = false → Memory.wf s.cfg s.tx = true →
    ∃ t, exec .expandAll s = .next t ∧ t = { s with tx := t.tx } ∧
      (∀ k, k < rawLength s.cfg → t.txByte k = (frameData s)[k]?) ∧
      (∀ k, rawLength s.cfg ≤ k → t.txByte k = s.txByte k) ∧ exec .expandAll t = .next t) ∧
  (∀ s : State, s.hostReady → s.inFlight = true → exec .expandAll s = .next { s with fault := .expandBusy }) ∧
  (∀ c : Config, c.order = .grb → c.invert = false → c.cieEnable = false →
    pixelBytes c 256#9 ⟨255#8, 0#8, 0#8⟩ =
      [0x92#8, 0x49#8, 0x24#8, 0xDB#8, 0x6D#8, 0xB6#8, 0x92#8, 0x49#8, 0x24#8])

/-! ### Transfer engine -/

/-- 42_transfer_engine.md R501, R502: WRITE_NB expands and issues, after which both the DMA and the host's next command
are enabled, or raises WRITE_BUSY and changes nothing else; with L = 0 the transfer is the data alone. -/
def Obligations.WriteNbExpandsAndIssues : Prop :=
  encode .writeNb = 0x0000000000000006#64 ∧
  (∀ s : State, s.hostReady → s.inFlight = false → Memory.wf s.cfg s.tx = true →
    ∃ t, exec .writeNb s = .next t ∧
      t = { s with tx := t.tx, fsm := .inflight, inFlight := true, done := false, dmaIdx := 0 } ∧
      (∀ k, k < rawLength s.cfg → t.txByte k = (frameData s)[k]?) ∧
      (∀ k, rawLength s.cfg ≤ k → t.txByte k = s.txByte k) ∧
      (0 < txLength s.cfg → agentEnabled .dma t = true) ∧ (s.cmds ≠ [] → agentEnabled .host t = true)) ∧
  (∀ s : State, s.hostReady → s.inFlight = true → exec .writeNb s = .next { s with fault := .writeBusy }) ∧
  (∀ c : Config, latchCount c = 0 → txLength c = rawLength c)

/-- 42_transfer_engine.md R501, R504: WRITE_B expands, issues and holds the host, or raises WRITE_BUSY and changes
nothing else. -/
def Obligations.WriteBExpandsIssuesAndHoldsTheHost : Prop :=
  encode .writeB = 0x0000000000000007#64 ∧
  (∀ s : State, s.hostReady → s.inFlight = false → Memory.wf s.cfg s.tx = true →
    ∃ t, exec .writeB s = .next t ∧
      t = { s with
            tx := t.tx, fsm := .inflight, inFlight := true, done := false, dmaIdx := 0, hwait := .waitDone } ∧
      (∀ k, k < rawLength s.cfg → t.txByte k = (frameData s)[k]?) ∧
      (∀ k, rawLength s.cfg ≤ k → t.txByte k = s.txByte k)) ∧
  (∀ s : State, s.hostReady → s.inFlight = true → exec .writeB s = .next { s with fault := .writeBusy })

/-- 42_transfer_engine.md R505: WRITE_B is WRITE_NB followed at once by WAIT_COMPLETE. -/
def Obligations.WriteBIsWriteNbThenWaitComplete : Prop :=
  (∀ s : State, s.hostReady → s.inFlight = false →
    ∃ t, exec .writeNb s = .next t ∧ exec .waitComplete t = exec .writeB s) ∧
  (∀ s : State, s.hostReady → s.inFlight = true → exec .writeNb s = exec .writeB s)

/-- 42_transfer_engine.md R506: WAIT_COMPLETE returns at once where `done = 1`, else holds the host; `done` stays. -/
def Obligations.WaitCompleteHoldsTheHostUnlessDone : Prop :=
  encode .waitComplete = 0x0000000000000008#64 ∧
  (∀ s : State, s.hostReady → s.done = true → exec .waitComplete s = .next s) ∧
  (∀ s : State, s.hostReady → s.done = false → exec .waitComplete s = .next { s with hwait := .waitDone })

/-- 42_transfer_engine.md R508: POLL_COMPLETE reads `done`, zero-extended, and writes `result` only. -/
def Obligations.PollCompleteReadsDone : Prop :=
  encode .pollComplete = 0x0000000000000009#64 ∧
  (∀ s : State, s.hostReady → ∃ t, exec .pollComplete s = .next t ∧ t = { s with result := t.result } ∧
    t.result.toNat = s.done.toNat)

/-- 42_transfer_engine.md R510: the host's step where it is held is enabled exactly when `done = 1`, and writes
`hwait <- RUN` and nothing else. -/
def Obligations.HostResumesExactlyWhenDone : Prop :=
  ∀ s : State, s.hwait = .waitDone →
    (agentEnabled .host s = true ↔ s.fault = .none ∧ s.done = true) ∧
    agentStep .host s = .next { s with hwait := .run } ∧
    (s.fault = .none → s.done = true → s.fsm = .idle → step s = .next { s with hwait := .run })

/-- 42_transfer_engine.md R520: a beat is enabled exactly as stated and moves the byte `tx[dma_idx]` to the end of
`wire`. -/
def Obligations.DmaBeatMovesOneByte : Prop :=
  (∀ s : State, agentEnabled .dma s = true ↔ s.fault = .none ∧ s.fsm = .inflight ∧ s.dmaIdx < txLength s.cfg) ∧
  (∀ s : State, s.dmaIdx < txLength s.cfg →
    ∃ b, s.txByte s.dmaIdx = some b ∧
      agentStep .dma s = .next { s with wire := s.wire ++ [b], dmaIdx := s.dmaIdx + 1 })

/-- 42_transfer_engine.md R530: the completion event is enabled exactly as stated and writes `done`, `in_flight` and
`fsm`, nothing else. -/
def Obligations.CompletionEventEndsTheTransfer : Prop :=
  (∀ s : State, agentEnabled .completion s = true ↔
    s.fault = .none ∧ s.fsm = .inflight ∧ s.dmaIdx = txLength s.cfg) ∧
  (∀ s : State, agentStep .completion s = .next { s with done := true, inFlight := false, fsm := .idle })

/-- 42_transfer_engine.md R500, R533, 10_state.md R105, R107: what one step can do to `fsm` and `done`. IDLE becomes
INFLIGHT only by a WRITE, which clears `done`; INFLIGHT becomes IDLE only by the completion event after the last beat,
which sets `done`; nothing else writes either. -/
def Obligations.TransferStateMachineTransitions : Prop :=
  ∀ s t : State, s.Inv → step s = .next t →
    (t.fsm = s.fsm ∧ t.done = s.done ∧ t.inFlight = s.inFlight) ∨
    (s.fsm = .idle ∧ t.fsm = .inflight ∧ t.done = false ∧ t.inFlight = true ∧ t.dmaIdx = 0 ∧ s.hwait = .run ∧
      ∃ w rest, s.cmds = .issue w :: rest ∧ (decode w = .ok .writeNb ∨ decode w = .ok .writeB)) ∨
    (s.fsm = .inflight ∧ t.fsm = .idle ∧ s.dmaIdx = txLength s.cfg ∧ s.done = false ∧ t.done = true ∧
      t.inFlight = false ∧ t.cmds = s.cmds)

/-- 42_transfer_engine.md R541, the frame law: from an idle state whose host's next command is WRITE_NB or WRITE_B,
whatever it issues after it and in whatever order the agents step, when the completion event of that transfer is reached
`wire` has grown by exactly FRAME of the start state. -/
def Obligations.FrameLawUnderEveryInterleaving : Prop :=
  ∀ (s t : State) (i : Instr) (rest : List HostAct) (k : Nat), s.Inv → IdleAndReady s →
    i = .writeNb ∨ i = .writeB → s.cmds = .issue (encode i) :: rest → 0 < k →
    (∀ j u, 0 < j → j < k → RunsTo j s u → u.fsm = .inflight) → RunsTo k s t → t.fsm = .idle →
      t.wire = s.wire ++ frame s

/-- 42_transfer_engine.md R541 over the states on the way: while the transfer is in flight the bytes moved so far are the
first `dma_idx` bytes of FRAME of the start state, whatever the host issues (20_memory.md R211 items a, b, d, e). -/
def Obligations.WireHoldsAFramePrefixInFlight : Prop :=
  ∀ (s t : State) (i : Instr) (rest : List HostAct) (k : Nat), s.Inv → IdleAndReady s →
    i = .writeNb ∨ i = .writeB → s.cmds = .issue (encode i) :: rest → 0 < k →
    (∀ j u, 0 < j → j < k → RunsTo j s u → u.fsm = .inflight) → RunsTo k s t → t.fsm = .inflight →
      t.wire = s.wire ++ (frame s).take t.dmaIdx ∧
      ∀ n, n < txLength s.cfg → t.txByte n = (frame s)[n]?

/-- 42_transfer_engine.md R504: a blocking write. From an idle state whose host's next command is WRITE_B, under every
schedule, the host has no step until the completion event, and after one host step, T beats, the completion and the
resume step the state is exactly: `wire` grown by FRAME, `done` set, the engine idle and the host running. -/
def Obligations.WriteBReturnsWithTheFrameOnTheWire : Prop :=
  ∀ (s : State) (rest : List HostAct), s.Inv → IdleAndReady s → s.cmds = .issue (encode .writeB) :: rest →
    (∀ j u, 1 ≤ j → j ≤ txLength s.cfg + 1 → RunsTo j s u →
      u.hwait = .waitDone ∧ agentEnabled .host u = false ∧ u.done = false) ∧
    RunsTo (txLength s.cfg + 3) s
      { s with
        cmds := rest, tx := (expand s).tx, wire := s.wire ++ frame s, dmaIdx := txLength s.cfg, done := true }

/-- 42_transfer_engine.md R506, R507, R509, R521: waits for a WRITE's transfer end, under every schedule. A host held while
it is in flight is released after the beats that are left, the completion and the resume step. Once a WRITE was issued, a
WAIT_COMPLETE and the host loop of POLL_COMPLETE until `result = 1` both end, and the loop in the same state, but for
`result`, which is 1, and for the model's own schedule fields. That the schedule is fair by its form is the model's (log
entries 8 and 14). -/
def Obligations.WaitsAndPollLoopsForATransferEnd : Prop :=
  (∀ s : State, s.Inv → s.fault = .none → s.hwait = .waitDone → s.fsm = .inflight →
    ∃ t, RunsTo (txLength s.cfg - s.dmaIdx + 2) s t ∧ t.done = true ∧ t.fsm = .idle ∧ t.hwait = .run ∧
      t.cmds = s.cmds ∧ t.dmaIdx = txLength s.cfg) ∧
  (∀ (s : State) (rest : List HostAct), s.Inv → s.hostReady → s.fsm = .inflight ∨ s.done = true →
    (s.cmds = .issue (encode .waitComplete) :: rest → ∃ k sc tu ld,
      RunsTo k s { afterTransfer s with cmds := rest, sched := sc, turns := tu, lead := ld }) ∧
    (s.cmds = .pollUntilDone :: rest → ∃ k sc tu ld,
      RunsTo k s { afterTransfer s with cmds := rest, result := 1#24, sched := sc, turns := tu, lead := ld }))

/-- 42_transfer_engine.md R521, 60_exceptions.md R604: a run of a finite list of commands without poll loops ends within
a bound. Once a WRITE was issued, a run with poll loops ends too, in a fault, at a reserved word, or with every transfer
complete and the host with nothing more to do; a run that ends so has left no transfer. A poll loop begun before the first
WRITE is in neither case and never ends (log entry 7). That the host's commands are a finite list, that the schedule is
fair by its form and that the end is the refusal `noCommand` is the model's choice (log entries 7, 8, 12 and 14). -/
def Obligations.RunsWithoutPollLoopsAndRunsAfterAWriteEnd : Prop :=
  (∀ s t : State, .pollUntilDone ∉ s.cmds → ¬ RunsTo ((s.cmds.length + 1) * (txLength s.cfg + 4)) s t) ∧
  (∀ s : State, s.Inv → s.fsm = .inflight ∨ s.done = true → ∃ k t, RunsTo k s t ∧
    (t.fault ≠ .none ∨ (∃ why, step t = .refused (.reservedWord why)) ∨
      step t = .refused .noCommand ∧ t.done = true)) ∧
  (∀ s : State, s.Inv → step s = .refused .noCommand →
    s.fsm = .idle ∧ s.inFlight = false ∧ s.fault = .none ∧ s.hwait = .run ∧ s.cmds = [])

/-- 42_transfer_engine.md R507, 60_exceptions.md R604: the one hang. A host held with `done = 0` and the engine idle has no
step for ever; that is the only wait that never ends, and it is one begun before the first WRITE. The fault
`waitNeverEnds` is the model's form of the hang (log entry 11). -/
def Obligations.TheOneHangIsAWaitBeforeTheFirstWrite : Prop :=
  (∀ s : State, s.fault = .none → s.hwait = .waitDone → s.done = false → s.fsm = .idle →
    step s = .fault .waitNeverEnds ∧ ∀ a, agentEnabled a s = false) ∧
  (∀ s : State, s.Inv → step s = .fault .waitNeverEnds → s.fsm = .idle ∧ s.done = false ∧ s.wire = [])

/-- 42_transfer_engine.md R540, 00_scope.md R12: L is the source's formula rounded down, the latch lasts at most 50
microseconds, exactly 50 at the multiples of 160000 Hz, and a frame ends with L latch bytes. -/
def Obligations.LatchIsAtMostFiftyMicroseconds : Prop :=
  (∀ c : Config, latchCount c = c.serialClockHz * Config.latchUs / (8 * 1000000)) ∧
  (∀ c : Config, 8 * latchCount c * 1000000 ≤ Config.latchUs * c.serialClockHz) ∧
  (∀ c : Config, 8 * latchCount c * 1000000 = Config.latchUs * c.serialClockHz ↔ 160000 ∣ c.serialClockHz) ∧
  (∀ s : State, (frame s).length = txLength s.cfg ∧
    (frame s).drop (rawLength s.cfg) = List.replicate (latchCount s.cfg) (latchByte s.cfg))

/-! ### Faults -/

/-- 60_exceptions.md R600, R615: each row of the fault table both ways: its command raises its code wherever its cause
holds, a command that changes `fault` raises the code of its own row, and only `fault` changes; and the codes' numbers. -/
def Obligations.FaultsArePreciseWithTheTablesCauses : Prop :=
  (∀ (i : Instr) (s t : State), exec i s = .next t → t.fault ≠ s.fault →
    t = { s with fault := t.fault } ∧
    ((t.fault = .writeBusy ∧ (i = .writeNb ∨ i = .writeB) ∧ s.inFlight = true) ∨
      (t.fault = .expandBusy ∧ i = .expandAll ∧ s.inFlight = true) ∨
      (t.fault = .readRange ∧ ∃ x, i = .getColor x ∧ s.cfg.n ≤ x.toNat))) ∧
  (∀ s : State, s.hostReady → s.inFlight = true →
    exec .writeNb s = .next { s with fault := .writeBusy } ∧ exec .writeB s = .next { s with fault := .writeBusy } ∧
    exec .expandAll s = .next { s with fault := .expandBusy }) ∧
  (∀ (s : State) (x : PixelIdx), s.hostReady → s.cfg.n ≤ x.toNat →
    exec (.getColor x) s = .next { s with fault := .readRange }) ∧
  (FaultCode.none.code = 0#2 ∧ FaultCode.writeBusy.code = 1#2 ∧ FaultCode.expandBusy.code = 2#2 ∧
    FaultCode.readRange.code = 3#2)

/-- 60_exceptions.md R601: raising a fault writes the code and nothing else; from then on no agent has a step, no command
runs, and no run goes on, so the register is never cleared. -/
def Obligations.AFaultStopsEveryAgentForEver : Prop :=
  (∀ (code : FaultCode) (s : State), raiseFault code s = .next { s with fault := code }) ∧
  (∀ s : State, s.fault ≠ .none →
    (∀ a, agentEnabled a s = false) ∧ (∀ i t, exec i s ≠ .next t) ∧ ∀ k t, 0 < k → ¬ RunsTo k s t)

/-- 60_exceptions.md R616: every command is available to the host, subject only to `fault = NONE` and `hwait = RUN`: it
answers a next state, and one that no busy or range condition stops leaves `fault` at NONE. -/
def Obligations.EveryCommandIsAvailableWhenReady : Prop :=
  ∀ (i : Instr) (s : State), s.hostReady → ∃ t, exec i s = .next t ∧
    (s.inFlight = false → (∀ x, i = .getColor x → x.toNat < s.cfg.n) → t.fault = .none)

/-- 60_exceptions.md R601 to R604, 20_memory.md R210: when a step stops. It is a fault exactly where `fault` is set or where
the host is held with `done = 0` and nothing in flight to set it; it is refused only where the host runs and has nothing
to do while no hardware agent has a step, which is exact, or has a reserved word next. No access to `tx` is at an address
that does not exist. The names of these outcomes are the model's choice (log entries 9 to 12). -/
def Obligations.StepStopsOnlyForTheSpecsReasons : Prop :=
  (∀ (s : State) (f : Fault), step s = .fault f ↔
    (s.fault ≠ .none ∧ f = .stopped s.fault) ∨
    (s.fault = .none ∧ s.hwait = .waitDone ∧ s.done = false ∧ hardwareAgent s = none ∧ f = .waitNeverEnds)) ∧
  (∀ s : State, step s = .refused .noCommand ↔
    s.fault = .none ∧ s.hwait = .run ∧ s.cmds = [] ∧ hardwareAgent s = none) ∧
  (∀ (s : State) (r : Refusal), step s = .refused r → r ≠ .noCommand →
    s.fault = .none ∧ s.hwait = .run ∧
      ∃ w rest why, s.cmds = .issue w :: rest ∧ decode w = .error why ∧ r = .reservedWord why)

/-! ### The whole machine -/

/-- A step in which the host goes runs the decoded command: it is `exec` of it on the state with the word taken off the
list, when no hardware agent is enabled, when the schedule's next entry is the host, and, with an empty schedule, while
the free value lets host steps go first. Where the host is in its poll loop (42_transfer_engine.md R509), the step is one
POLL_COMPLETE, after which the loop is over if `result = 1`. The list and the schedule are the model's own (log entries 7
and 8). -/
def Obligations.AStepRunsTheDecodedCommand : Prop :=
  (∀ (s : State) (w : CmdWord) (rest : List HostAct) (i : Instr), s.hostReady → s.cmds = .issue w :: rest →
    decode w = .ok i →
    (hardwareAgent s = none → step s = exec i { s with cmds := rest }) ∧
    (∀ (a : Agent) (sc : List Turn), hardwareAgent s = some a → s.sched = .host :: sc →
      step s = exec i { s with cmds := rest, sched := sc }) ∧
    (∀ a : Agent, hardwareAgent s = some a → s.sched = [] →
      step s = if s.lead < Config.freeLead s.turns then exec i { s with cmds := rest, lead := s.lead + 1 }
        else agentStep a { s with turns := s.turns + 1, lead := 0 })) ∧
  (∀ (s : State) (rest : List HostAct), s.hostReady → s.cmds = .pollUntilDone :: rest →
    (hardwareAgent s = none → step s = .next
      { s with result := if s.done then 1#24 else 0#24, cmds := if s.done then rest else s.cmds }) ∧
    (∀ (a : Agent) (sc : List Turn), hardwareAgent s = some a → s.sched = .host :: sc → step s = .next
      { s with result := if s.done then 1#24 else 0#24, cmds := if s.done then rest else s.cmds, sched := sc }))

/-- The next step after a word is made the host's next command runs the command it decodes to, on the state itself,
whatever the hardware could do (log entry 7, the model's choice). -/
def Obligations.AFetchedWordIsTheNextStep : Prop :=
  ∀ (s : State) (nbits w : Nat) (i : Instr), s.hostReady → decode (tableWord nbits w) = .ok i →
    step (s.withFetchWord nbits w) = exec i s

/-- 60_exceptions.md R613: where host and hardware are both enabled, either may go next; what it then does is its own
step, and the schedule decides it. At most one of the DMA beat and the completion event is enabled. The schedule
is the model's own (log entry 8). -/
def Obligations.AnyEnabledAgentMayGoNext : Prop :=
  (∀ (s : State) (a : Agent) (sc : List Turn), agentEnabled .host s = true → agentEnabled a s = true → a ≠ .host →
    (s.sched = .host :: sc → step s = agentStep .host { s with sched := sc }) ∧
    (s.sched = .hardware :: sc → step s = agentStep a { s with sched := sc })) ∧
  (∀ (s : State) (a : Agent), agentEnabled a s = true → (∀ b, agentEnabled b s = true → b = a) →
    step s = agentStep a s) ∧
  (∀ s : State, ¬ (agentEnabled .dma s = true ∧ agentEnabled .completion s = true))

/-- 42_transfer_engine.md R503: after WRITE_NB the host's next command may see `done` as 0 or 1; both happen, under some
schedule (log entry 8), for every idle state. -/
def Obligations.PollAfterWriteNbMaySeeEitherValue : Prop :=
  ∀ s : State, s.Inv → IdleAndReady s → s.cmds = [.issue (encode .writeNb), .issue (encode .pollComplete)] →
    (∃ sc k t, RunsTo k { s with sched := sc } t ∧ t.cmds = [] ∧ t.result = 0#24) ∧
    (∃ sc k t, RunsTo k { s with sched := sc } t ∧ t.cmds = [] ∧ t.result = 1#24)

/-- The invariant: from every state that has it, every step that answers a next state keeps it. -/
def Obligations.EveryStepKeepsTheInvariant : Prop := ∀ s t : State, s.Inv → step s = .next t → t.Inv

/-- The state after reset, with the model's choice of arguments (log entries 2 to 6), has the invariant. -/
def Obligations.ResetHasTheInvariant : Prop := State.reset.Inv

/-- 70_reset_and_hazards.md R700, 00_scope.md R10: construction refuses an ill-formed configuration and gives, for a
well-formed one and all reset arguments, the table's state, which has the invariant. -/
def Obligations.ConstructionGivesTheResetTable : Prop :=
  (∀ (c : Config) (a : InitArgs), c.wf = false → construct c a = .refused .illFormedConfig) ∧
  (∀ (c : Config) (a : InitArgs), c.wf = true → a.colors.length = c.n → a.raw.length = 9 * c.n →
    ∃ s, construct c a = .next s ∧ s.Inv ∧ s.cfg = c ∧ s.colors = a.colors ∧ s.bp1.toNat = a.brightness.toNat + 1 ∧
      (∀ k, k < 9 * c.n → s.txByte k = a.raw[k]?) ∧
      (∀ k, 9 * c.n ≤ k → k < txLength c → s.txByte k = some (latchByte c)) ∧
      s.fsm = .idle ∧ s.inFlight = false ∧ s.done = false ∧ s.dmaIdx = 0 ∧ s.fault = .none ∧ s.hwait = .run ∧
      s.result = a.result ∧ s.wire = [])

/-- The state after reset is the constructed state of the model's own choice of parameters and reset arguments (log
entries 2 to 6), and only the host can step in a constructed state (70_reset_and_hazards.md R701). -/
def Obligations.ResetIsAConstructedState : Prop :=
  construct Config.atReset InitArgs.atReset = .next State.reset ∧
  (∀ (c : Config) (a : InitArgs) (s : State) (w : HostAct), construct c a = .next s →
    agentEnabled .dma s = false ∧ agentEnabled .completion s = false ∧
    agentEnabled .host { s with cmds := [w] } = true)

/-- 10_state.md R113: no step writes the parameters. -/
def Obligations.ParametersNeverChange : Prop := ∀ s t : State, step s = .next t → t.cfg = s.cfg

/-- 10_state.md R112: `wire` is empty after reset and grows only by a beat, by the one byte `tx[dma_idx]`, at its end. -/
def Obligations.WireGrowsOnlyByABeat : Prop :=
  State.reset.wire = [] ∧
  ∀ s t : State, step s = .next t →
    t.wire = s.wire ∨
    (s.fsm = .inflight ∧ s.dmaIdx < txLength s.cfg ∧ t.dmaIdx = s.dmaIdx + 1 ∧
      ∃ b, s.txByte s.dmaIdx = some b ∧ t.wire = s.wire ++ [b])

/-- 10_state.md R102, R103, R104: colours are written only by SET_COLOR, brightness only by SET_BRIGHTNESS, the transmit
buffer only by the commands that expand; every other step leaves them. -/
def Obligations.OnlyTheirCommandsWriteFrameBufferState : Prop :=
  ∀ s t : State, step s = .next t →
    (t.colors ≠ s.colors → ∃ w rest x r g b, s.cmds = .issue w :: rest ∧ decode w = .ok (.setColor x r g b)) ∧
    (t.bp1 ≠ s.bp1 → ∃ w rest v, s.cmds = .issue w :: rest ∧ decode w = .ok (.setBrightness v)) ∧
    (t.tx ≠ s.tx → s.inFlight = false ∧ ∃ w rest, s.cmds = .issue w :: rest ∧
      (decode w = .ok .expandAll ∨ decode w = .ok .writeNb ∨ decode w = .ok .writeB))

/-- 10_state.md R115, 20_memory.md R211 item e, 42_transfer_engine.md R533, 70_reset_and_hazards.md R706: no command
touches a transfer in flight: not `tx`, not the DMA's progress, not `wire`, not the transfer state. -/
def Obligations.NoCommandTouchesATransferInFlight : Prop :=
  ∀ (i : Instr) (s t : State), s.inFlight = true → exec i s = .next t →
    t.tx = s.tx ∧ t.dmaIdx = s.dmaIdx ∧ t.wire = s.wire ∧ t.fsm = s.fsm ∧ t.inFlight = true ∧ t.done = s.done ∧
    t.cfg = s.cfg

/-- 10_state.md R107, R117: of the commands only WRITE changes `done`, `in_flight` or `fsm`, and `result` is written only by the
three value-returning commands (R111). -/
def Obligations.CommandsLeaveTheFlagsAlone : Prop :=
  (∀ (i : Instr) (s t : State), exec i s = .next t → i ≠ .writeNb → i ≠ .writeB →
    t.done = s.done ∧ t.inFlight = s.inFlight ∧ t.fsm = s.fsm ∧ t.dmaIdx = s.dmaIdx) ∧
  (∀ (i : Instr) (s t : State), exec i s = .next t → t.result ≠ s.result →
    (∃ v, i = .encodeChannel v) ∨ (∃ x, i = .getColor x) ∨ i = .pollComplete)

/-- 10_state.md R116: the contents of `raw` before a WRITE never reach `wire`: two states that differ only there are the
same state after it. -/
def Obligations.OldRawNeverReachesTheWire : Prop :=
  ∀ (s t : State) (m : Memory), s.Inv → s.hostReady → s.fsm = .idle → Memory.wf s.cfg m = true →
    (∀ k, rawLength s.cfg ≤ k → Memory.read s.cfg m k = s.txByte k) →
    exec .writeNb s = .next t → exec .writeNb { s with tx := m } = .next t

/-- 70_reset_and_hazards.md R703: a program that sets the brightness and every pixel determines its frame: from any two
running states of one configuration, whatever their colours and brightness were, it leaves the same frame. -/
def Obligations.SettingEverythingDeterminesTheFrame : Prop :=
  ∀ (is : List Instr) (s s' t t' : State), s.cfg = s'.cfg → s.colors.length = s.cfg.n → s'.colors.length = s'.cfg.n →
    (∃ v, .setBrightness v ∈ is) → (∀ k, k < s.cfg.n → ∃ x r g b, .setColor x r g b ∈ is ∧ x.toNat = k) →
    (∀ i ∈ is, (∃ v, i = .setBrightness v) ∨ ∃ x r g b, i = .setColor x r g b) →
    runCommands is s = .next t → runCommands is s' = .next t' → frame t = frame t'

/-- 60_exceptions.md R619: a step of one instance is its own step, it answers a next state exactly when that does, and it
leaves every other instance as it was. That several instances are a list of states is the model's choice (log entry 20). -/
def Obligations.InstancesAreIndependent : Prop :=
  (∀ (k : Nat) (fleet fleet' : List State), stepInstance k fleet = .next fleet' →
    (∃ s t, fleet[k]? = some s ∧ step s = .next t ∧ fleet'[k]? = some t) ∧ ∀ j, j ≠ k → fleet'[j]? = fleet[j]?) ∧
  (∀ (k : Nat) (fleet : List State) (s t : State), fleet[k]? = some s → step s = .next t →
    stepInstance k fleet = .next (fleet.set k t))
end

