-- ==== Sys2Proof/Laws/Decode.lean ====
section
/-! SUPPORT. What a word that decodes to a command looks like, field by field. -/

namespace Sys2Proof

/-- The number of two words one after the other. -/
theorem toNat_append_eq {n m : Nat} (x : BitVec n) (y : BitVec m) : (x ++ y).toNat = x.toNat * 2 ^ m + y.toNat := by
  rw [BitVec.toNat_append, Nat.shiftLeft_eq, Nat.mul_comm, ← Nat.two_pow_add_eq_or_of_lt y.isLt]

theorem opField_toNat (w : CmdWord) : (opField w).toNat = w.toNat % 256 := by
  simp [opField, BitVec.extractLsb'_toNat]

/-- Everything a word that decodes can be: its opcode, its reserved bits zero, its operands its fields. -/
theorem decode_ok_cases {w : CmdWord} {i : Instr} (h : decode w = .ok i) :
    match i with
    | .encodeChannel v => opField w = 0x01#8 ∧ w.toNat < 2 ^ 16 ∧ v = valField w
    | .setColor x r g b =>
      opField w = 0x02#8 ∧ w.toNat < 2 ^ 48 ∧ x = idxField w ∧ r = redField w ∧ g = greenField w ∧ b = blueField w
    | .getColor x => opField w = 0x03#8 ∧ w.toNat < 2 ^ 24 ∧ x = idxField w
    | .setBrightness v => opField w = 0x04#8 ∧ w.toNat < 2 ^ 16 ∧ v = valField w
    | .expandAll => opField w = 0x05#8 ∧ w.toNat < 2 ^ 8
    | .writeNb => opField w = 0x06#8 ∧ w.toNat < 2 ^ 8
    | .writeB => opField w = 0x07#8 ∧ w.toNat < 2 ^ 8
    | .waitComplete => opField w = 0x08#8 ∧ w.toNat < 2 ^ 8
    | .pollComplete => opField w = 0x09#8 ∧ w.toNat < 2 ^ 8 := by
  unfold decode at h
  split at h <;> (try (simp only [requireZeroFrom] at h; split at h)) <;> cases h
  all_goals
    rename_i h1 h2
    have hop : ∀ {o : Byte}, (opField w).toNat = o.toNat → opField w = o := fun h => BitVec.eq_of_toNat_eq h
  all_goals first
    | exact ⟨hop h1, h2, rfl, rfl, rfl, rfl⟩
    | exact ⟨hop h1, h2, rfl⟩
    | exact ⟨hop h1, h2⟩

end Sys2Proof
end

