-- ==== Sys2Proof/Laws/Memory.lean ====
section
/-! SUPPORT. The laws of the transmit buffer: what a write reads as, that the canonical form is kept, and that equal
contents are equal lists. -/

namespace Sys2Proof.Machine

variable {c : Config} {m : Memory} {lo j k : Nat} {b : Byte}

/-! ### Addresses -/

theorem rawLength_le_txLength (c : Config) : rawLength c ≤ txLength c := Nat.le_add_right _ _

theorem Memory.unlisted_isSome_iff : (Memory.unlisted c k).isSome = true ↔ k < txLength c := by
  have := rawLength_le_txLength c
  unfold Memory.unlisted
  split
  · simp; omega
  · split <;> simp <;> omega

theorem Memory.unlisted_raw (h : k < rawLength c) : Memory.unlisted c k = some 0#8 := by
  simp [Memory.unlisted, h]

theorem Memory.unlisted_latch (h : rawLength c ≤ k) (h' : k < txLength c) :
    Memory.unlisted c k = some (latchByte c) := by
  simp [Memory.unlisted, h', Nat.not_lt.2 h]

theorem Memory.unlisted_outside (h : txLength c ≤ k) : Memory.unlisted c k = none := by
  have := rawLength_le_txLength c
  simp only [Memory.unlisted]
  rw [if_neg (by omega), if_neg (by omega)]

/-! ### The list under the buffer -/

theorem Memory.lookup_insert_same (m : Memory) (k : Nat) (b : Byte) :
    Memory.lookup (Memory.insert m k b) k = some b := by
  induction m with
  | nil => simp [Memory.insert, Memory.lookup]
  | cons e m ih =>
    simp only [Memory.insert]
    split
    · next h => simp [Memory.lookup, ih, Nat.ne_of_lt h]
    · split <;> simp [Memory.lookup]

theorem Memory.lookup_insert_other (m : Memory) (b : Byte) (h : j ≠ k) :
    Memory.lookup (Memory.insert m k b) j = Memory.lookup m j := by
  induction m with
  | nil => simp [Memory.insert, Memory.lookup, h.symm]
  | cons e m ih =>
    simp only [Memory.insert]
    split
    · simp [Memory.lookup, ih]
    · split
      · next h' => simp [Memory.lookup, h.symm, h']
      · simp [Memory.lookup, h.symm]

theorem Memory.lookup_erase_other (m : Memory) (h : j ≠ k) :
    Memory.lookup (Memory.erase m k) j = Memory.lookup m j := by
  induction m with
  | nil => rfl
  | cons e m ih =>
    simp only [Memory.erase]
    split
    · next h' => simp [Memory.lookup, h.symm, h']
    · simp [Memory.lookup, ih]

theorem Memory.wfFrom_mono (h : Memory.wfFrom c lo m = true) (hj : j ≤ lo) : Memory.wfFrom c j m = true := by
  cases m with
  | nil => rfl
  | cons e m =>
    simp only [Memory.wfFrom, Bool.and_eq_true, decide_eq_true_eq] at h ⊢
    exact ⟨⟨⟨by omega, h.1.1.2⟩, h.1.2⟩, h.2⟩

theorem Memory.lookup_below (h : Memory.wfFrom c lo m = true) (hk : k < lo) : Memory.lookup m k = none := by
  induction m generalizing lo with
  | nil => rfl
  | cons e m ih =>
    simp only [Memory.wfFrom, Bool.and_eq_true, decide_eq_true_eq] at h
    have : e.1 ≠ k := by omega
    simp [Memory.lookup, this, ih h.2 (by omega)]

theorem Memory.lookup_erase_same (h : Memory.wfFrom c lo m = true) :
    Memory.lookup (Memory.erase m k) k = none := by
  induction m generalizing lo with
  | nil => rfl
  | cons e m ih =>
    simp only [Memory.wfFrom, Bool.and_eq_true, decide_eq_true_eq] at h
    simp only [Memory.erase]
    split
    · next h' => exact Memory.lookup_below h.2 (by omega)
    · next h' => simp [Memory.lookup, h', ih h.2]

theorem Memory.wfFrom_erase (h : Memory.wfFrom c lo m = true) : Memory.wfFrom c lo (Memory.erase m k) = true := by
  induction m generalizing lo with
  | nil => rfl
  | cons e m ih =>
    simp only [Memory.wfFrom, Bool.and_eq_true, decide_eq_true_eq] at h
    simp only [Memory.erase]
    split
    · exact Memory.wfFrom_mono h.2 (by omega)
    · simp only [Memory.wfFrom, Bool.and_eq_true, decide_eq_true_eq]
      exact ⟨h.1, ih h.2⟩

theorem Memory.wfFrom_insert (h : Memory.wfFrom c lo m = true) (hlo : lo ≤ k) (hk : k < txLength c)
    (hb : Memory.unlisted c k ≠ some b) : Memory.wfFrom c lo (Memory.insert m k b) = true := by
  induction m generalizing lo with
  | nil =>
    simp only [Memory.insert, Memory.wfFrom, Bool.and_eq_true, decide_eq_true_eq]
    exact ⟨⟨⟨hlo, hk⟩, hb⟩, trivial⟩
  | cons e m ih =>
    simp only [Memory.wfFrom, Bool.and_eq_true, decide_eq_true_eq] at h
    simp only [Memory.insert]
    split
    · simp only [Memory.wfFrom, Bool.and_eq_true, decide_eq_true_eq]
      exact ⟨h.1, ih h.2 (by omega)⟩
    · split
      · next h' =>
        simp only [Memory.wfFrom, Bool.and_eq_true, decide_eq_true_eq]
        exact ⟨⟨⟨hlo, hk⟩, hb⟩, h' ▸ h.2⟩
      · simp only [Memory.wfFrom, Bool.and_eq_true, decide_eq_true_eq]
        exact ⟨⟨⟨hlo, hk⟩, hb⟩, ⟨⟨by omega, h.1.1.2⟩, h.1.2⟩, h.2⟩

/-! ### Reading and writing -/

theorem Memory.wf_nil (c : Config) : Memory.wf c [] = true := rfl

theorem Memory.read_nil (c : Config) (k : Nat) : Memory.read c [] k = Memory.unlisted c k := by
  unfold Memory.read
  cases Memory.unlisted c k <;> rfl

/-- A byte exists exactly at the addresses 0 to T-1 (20_memory.md R200). -/
theorem Memory.read_isSome_iff : (Memory.read c m k).isSome = true ↔ k < txLength c := by
  rw [← Memory.unlisted_isSome_iff]
  unfold Memory.read
  cases Memory.unlisted c k <;> simp

theorem Memory.read_outside (h : txLength c ≤ k) : Memory.read c m k = none := by
  simp [Memory.read, Memory.unlisted_outside h]

theorem Memory.read_write_same (h : Memory.wf c m = true) (hk : k < txLength c) :
    Memory.read c (Memory.write c m k b) k = some b := by
  obtain ⟨d, hd⟩ := Option.isSome_iff_exists.1 (Memory.unlisted_isSome_iff.2 hk)
  simp only [Memory.read, Memory.write, hd]
  split
  · next h' => simp [Memory.lookup_erase_same h, h']
  · simp [Memory.lookup_insert_same]

theorem Memory.read_write_other (h : j ≠ k) : Memory.read c (Memory.write c m k b) j = Memory.read c m j := by
  unfold Memory.write
  split
  · rfl
  · split
    · simp [Memory.read, Memory.lookup_erase_other m h]
    · simp [Memory.read, Memory.lookup_insert_other m b h]

/-- Every write keeps the canonical form. -/
theorem Memory.wf_write (h : Memory.wf c m = true) : Memory.wf c (Memory.write c m k b) = true := by
  unfold Memory.write
  split
  · exact h
  · next d hd =>
    split
    · exact Memory.wfFrom_erase h
    · next hb =>
      have hk : k < txLength c := Memory.unlisted_isSome_iff.1 (by simp [hd])
      exact Memory.wfFrom_insert h (Nat.zero_le k) hk (by simpa [hd] using fun e => hb e.symm)

/-- Every run of writes keeps the canonical form. -/
theorem Memory.wf_writeRun {base : Nat} {bs : List Byte} (h : Memory.wf c m = true) :
    Memory.wf c (Memory.writeRun c m base bs) = true := by
  induction bs generalizing m base with
  | nil => exact h
  | cons b bs ih => exact ih (Memory.wf_write h)

/-- A run of writes leaves the addresses before and after it alone. -/
theorem Memory.read_writeRun_outside {base : Nat} {bs : List Byte} (h : k < base ∨ base + bs.length ≤ k) :
    Memory.read c (Memory.writeRun c m base bs) k = Memory.read c m k := by
  induction bs generalizing m base with
  | nil => rfl
  | cons b bs ih =>
    simp only [List.length_cons] at h
    simp only [Memory.writeRun]
    rw [ih (by omega), Memory.read_write_other (by omega)]

/-- A run of writes reads back as the bytes written. -/
theorem Memory.read_writeRun_inside {base i : Nat} {bs : List Byte} (h : Memory.wf c m = true)
    (hi : i < bs.length) (hT : base + bs.length ≤ txLength c) :
    Memory.read c (Memory.writeRun c m base bs) (base + i) = bs[i]? := by
  induction bs generalizing m base i with
  | nil => simp at hi
  | cons b bs ih =>
    simp only [List.length_cons] at hi hT
    simp only [Memory.writeRun]
    cases i with
    | zero =>
      rw [Memory.read_writeRun_outside (by omega), Nat.add_zero, Memory.read_write_same h (by omega)]
      rfl
    | succ i =>
      have := ih (m := Memory.write c m base b) (base := base + 1) (i := i) (Memory.wf_write h) (by omega) (by omega)
      rw [show base + 1 + i = base + (i + 1) by omega] at this
      simpa using this

/-! ### Equal contents are equal lists -/

theorem Memory.lookup_above {m : Memory} (h : Memory.wfFrom c lo m = true) (hk : Memory.lookup m k = some b) :
    lo ≤ k ∧ k < txLength c ∧ Memory.unlisted c k ≠ some b := by
  induction m generalizing lo with
  | nil => simp [Memory.lookup] at hk
  | cons e m ih =>
    simp only [Memory.wfFrom, Bool.and_eq_true, decide_eq_true_eq] at h
    simp only [Memory.lookup] at hk
    split at hk
    · next h' =>
      obtain rfl := Option.some.inj hk
      exact h' ▸ ⟨h.1.1.1, h.1.1.2, h.1.2⟩
    · have := ih h.2 hk
      exact ⟨by omega, this.2⟩

theorem Memory.lookup_eq_of_read_eq {m m' : Memory} (h : Memory.wf c m = true) (h' : Memory.wf c m' = true)
    (hr : Memory.read c m k = Memory.read c m' k) : Memory.lookup m k = Memory.lookup m' k := by
  unfold Memory.read at hr
  split at hr
  · next hd =>
    cases hm : Memory.lookup m k with
    | some b => exact absurd (Memory.unlisted_isSome_iff.2 (Memory.lookup_above h hm).2.1) (by simp [hd])
    | none =>
      cases hm' : Memory.lookup m' k with
      | some b => exact absurd (Memory.unlisted_isSome_iff.2 (Memory.lookup_above h' hm').2.1) (by simp [hd])
      | none => rfl
  · next d hd =>
    cases hm : Memory.lookup m k with
    | some b =>
      have hb := (Memory.lookup_above h hm).2.2
      cases hm' : Memory.lookup m' k with
      | some b' => simpa [hm, hm'] using hr
      | none => simp [hm, hm', hd] at hr hb; exact absurd hr.symm hb
    | none =>
      cases hm' : Memory.lookup m' k with
      | some b' =>
        have hb := (Memory.lookup_above h' hm').2.2
        simp [hm, hm', hd] at hr hb
        exact absurd hr hb
      | none => rfl

theorem Memory.eq_of_lookup_eq {m m' : Memory} (h : Memory.wfFrom c lo m = true) (h' : Memory.wfFrom c lo m' = true)
    (hl : ∀ k, Memory.lookup m k = Memory.lookup m' k) : m = m' := by
  induction m generalizing lo m' with
  | nil =>
    cases m' with
    | nil => rfl
    | cons e' m' => simpa [Memory.lookup] using hl e'.1
  | cons e m ih =>
    cases m' with
    | nil => simpa [Memory.lookup] using hl e.1
    | cons e' m' =>
      simp only [Memory.wfFrom, Bool.and_eq_true, decide_eq_true_eq] at h h'
      have he : e = e' := by
        have h1 := hl e.1
        have h2 := hl e'.1
        simp only [Memory.lookup, if_true] at h1 h2
        by_cases hlt : e.1 = e'.1
        · rw [if_pos hlt.symm] at h1
          exact Prod.ext hlt (Option.some.inj h1)
        · rw [if_neg (Ne.symm hlt)] at h1
          rw [if_neg hlt] at h2
          have := (Memory.lookup_above h'.2 h1.symm).1
          have := (Memory.lookup_above h.2 h2).1
          omega
      subst he
      refine congrArg (e :: ·) (ih h.2 h'.2 fun k => ?_)
      by_cases hk : e.1 = k
      · rw [Memory.lookup_below h.2 (by omega), Memory.lookup_below h'.2 (by omega)]
      · simpa [Memory.lookup, hk] using hl k

/-- Two buffers in canonical form that read the same are the same list. -/
theorem Memory.ext_of_read {m m' : Memory} (h : Memory.wf c m = true) (h' : Memory.wf c m' = true)
    (hr : ∀ k, Memory.read c m k = Memory.read c m' k) : m = m' :=
  Memory.eq_of_lookup_eq h h' fun k => Memory.lookup_eq_of_read_eq h h' (hr k)

end Sys2Proof.Machine
end

