-- ==== Sys2Proof/Laws/State.lean ====
section
/-! SUPPORT. The fields of each named update of the state. -/

namespace Sys2Proof.Machine

/-! `markPending` (42_transfer_engine.md R501) -/

@[simp] theorem markPending_cfg (s : State) : (markPending s).cfg = s.cfg := rfl
@[simp] theorem markPending_colors (s : State) : (markPending s).colors = s.colors := rfl
@[simp] theorem markPending_bp1 (s : State) : (markPending s).bp1 = s.bp1 := rfl
@[simp] theorem markPending_tx (s : State) : (markPending s).tx = s.tx := rfl
@[simp] theorem markPending_fsm (s : State) : (markPending s).fsm = .pending := rfl
@[simp] theorem markPending_inFlight (s : State) : (markPending s).inFlight = s.inFlight := rfl
@[simp] theorem markPending_done (s : State) : (markPending s).done = false := rfl
@[simp] theorem markPending_dmaIdx (s : State) : (markPending s).dmaIdx = s.dmaIdx := rfl
@[simp] theorem markPending_fault (s : State) : (markPending s).fault = s.fault := rfl
@[simp] theorem markPending_hwait (s : State) : (markPending s).hwait = s.hwait := rfl
@[simp] theorem markPending_result (s : State) : (markPending s).result = s.result := rfl
@[simp] theorem markPending_wire (s : State) : (markPending s).wire = s.wire := rfl
@[simp] theorem markPending_cmds (s : State) : (markPending s).cmds = s.cmds := rfl
@[simp] theorem markPending_sched (s : State) : (markPending s).sched = s.sched := rfl
@[simp] theorem markPending_turns (s : State) : (markPending s).turns = s.turns := rfl
@[simp] theorem markPending_lead (s : State) : (markPending s).lead = s.lead := rfl

/-! `markIssued` (42_transfer_engine.md R501) -/

@[simp] theorem markIssued_cfg (s : State) : (markIssued s).cfg = s.cfg := rfl
@[simp] theorem markIssued_colors (s : State) : (markIssued s).colors = s.colors := rfl
@[simp] theorem markIssued_bp1 (s : State) : (markIssued s).bp1 = s.bp1 := rfl
@[simp] theorem markIssued_tx (s : State) : (markIssued s).tx = s.tx := rfl
@[simp] theorem markIssued_fsm (s : State) : (markIssued s).fsm = .inflight := rfl
@[simp] theorem markIssued_inFlight (s : State) : (markIssued s).inFlight = true := rfl
@[simp] theorem markIssued_done (s : State) : (markIssued s).done = s.done := rfl
@[simp] theorem markIssued_dmaIdx (s : State) : (markIssued s).dmaIdx = 0 := rfl
@[simp] theorem markIssued_fault (s : State) : (markIssued s).fault = s.fault := rfl
@[simp] theorem markIssued_hwait (s : State) : (markIssued s).hwait = s.hwait := rfl
@[simp] theorem markIssued_result (s : State) : (markIssued s).result = s.result := rfl
@[simp] theorem markIssued_wire (s : State) : (markIssued s).wire = s.wire := rfl
@[simp] theorem markIssued_cmds (s : State) : (markIssued s).cmds = s.cmds := rfl
@[simp] theorem markIssued_sched (s : State) : (markIssued s).sched = s.sched := rfl
@[simp] theorem markIssued_turns (s : State) : (markIssued s).turns = s.turns := rfl
@[simp] theorem markIssued_lead (s : State) : (markIssued s).lead = s.lead := rfl

/-! `markComplete` (42_transfer_engine.md R530) -/

@[simp] theorem markComplete_cfg (s : State) : (markComplete s).cfg = s.cfg := rfl
@[simp] theorem markComplete_colors (s : State) : (markComplete s).colors = s.colors := rfl
@[simp] theorem markComplete_bp1 (s : State) : (markComplete s).bp1 = s.bp1 := rfl
@[simp] theorem markComplete_tx (s : State) : (markComplete s).tx = s.tx := rfl
@[simp] theorem markComplete_fsm (s : State) : (markComplete s).fsm = .idle := rfl
@[simp] theorem markComplete_inFlight (s : State) : (markComplete s).inFlight = false := rfl
@[simp] theorem markComplete_done (s : State) : (markComplete s).done = true := rfl
@[simp] theorem markComplete_dmaIdx (s : State) : (markComplete s).dmaIdx = s.dmaIdx := rfl
@[simp] theorem markComplete_fault (s : State) : (markComplete s).fault = s.fault := rfl
@[simp] theorem markComplete_hwait (s : State) : (markComplete s).hwait = s.hwait := rfl
@[simp] theorem markComplete_result (s : State) : (markComplete s).result = s.result := rfl
@[simp] theorem markComplete_wire (s : State) : (markComplete s).wire = s.wire := rfl
@[simp] theorem markComplete_cmds (s : State) : (markComplete s).cmds = s.cmds := rfl
@[simp] theorem markComplete_sched (s : State) : (markComplete s).sched = s.sched := rfl
@[simp] theorem markComplete_turns (s : State) : (markComplete s).turns = s.turns := rfl
@[simp] theorem markComplete_lead (s : State) : (markComplete s).lead = s.lead := rfl

/-! `holdHost` (42_transfer_engine.md R504) -/

@[simp] theorem holdHost_cfg (s : State) : (holdHost s).cfg = s.cfg := rfl
@[simp] theorem holdHost_colors (s : State) : (holdHost s).colors = s.colors := rfl
@[simp] theorem holdHost_bp1 (s : State) : (holdHost s).bp1 = s.bp1 := rfl
@[simp] theorem holdHost_tx (s : State) : (holdHost s).tx = s.tx := rfl
@[simp] theorem holdHost_fsm (s : State) : (holdHost s).fsm = s.fsm := rfl
@[simp] theorem holdHost_inFlight (s : State) : (holdHost s).inFlight = s.inFlight := rfl
@[simp] theorem holdHost_done (s : State) : (holdHost s).done = s.done := rfl
@[simp] theorem holdHost_dmaIdx (s : State) : (holdHost s).dmaIdx = s.dmaIdx := rfl
@[simp] theorem holdHost_fault (s : State) : (holdHost s).fault = s.fault := rfl
@[simp] theorem holdHost_hwait (s : State) : (holdHost s).hwait = .waitDone := rfl
@[simp] theorem holdHost_result (s : State) : (holdHost s).result = s.result := rfl
@[simp] theorem holdHost_wire (s : State) : (holdHost s).wire = s.wire := rfl
@[simp] theorem holdHost_cmds (s : State) : (holdHost s).cmds = s.cmds := rfl
@[simp] theorem holdHost_sched (s : State) : (holdHost s).sched = s.sched := rfl
@[simp] theorem holdHost_turns (s : State) : (holdHost s).turns = s.turns := rfl
@[simp] theorem holdHost_lead (s : State) : (holdHost s).lead = s.lead := rfl

/-! `releaseHost` (42_transfer_engine.md R510) -/

@[simp] theorem releaseHost_cfg (s : State) : (releaseHost s).cfg = s.cfg := rfl
@[simp] theorem releaseHost_colors (s : State) : (releaseHost s).colors = s.colors := rfl
@[simp] theorem releaseHost_bp1 (s : State) : (releaseHost s).bp1 = s.bp1 := rfl
@[simp] theorem releaseHost_tx (s : State) : (releaseHost s).tx = s.tx := rfl
@[simp] theorem releaseHost_fsm (s : State) : (releaseHost s).fsm = s.fsm := rfl
@[simp] theorem releaseHost_inFlight (s : State) : (releaseHost s).inFlight = s.inFlight := rfl
@[simp] theorem releaseHost_done (s : State) : (releaseHost s).done = s.done := rfl
@[simp] theorem releaseHost_dmaIdx (s : State) : (releaseHost s).dmaIdx = s.dmaIdx := rfl
@[simp] theorem releaseHost_fault (s : State) : (releaseHost s).fault = s.fault := rfl
@[simp] theorem releaseHost_hwait (s : State) : (releaseHost s).hwait = .run := rfl
@[simp] theorem releaseHost_result (s : State) : (releaseHost s).result = s.result := rfl
@[simp] theorem releaseHost_wire (s : State) : (releaseHost s).wire = s.wire := rfl
@[simp] theorem releaseHost_cmds (s : State) : (releaseHost s).cmds = s.cmds := rfl
@[simp] theorem releaseHost_sched (s : State) : (releaseHost s).sched = s.sched := rfl
@[simp] theorem releaseHost_turns (s : State) : (releaseHost s).turns = s.turns := rfl
@[simp] theorem releaseHost_lead (s : State) : (releaseHost s).lead = s.lead := rfl

/-! `emit` (00_scope.md R15) -/

@[simp] theorem emit_cfg (b : Byte) (s : State) : (emit b s).cfg = s.cfg := rfl
@[simp] theorem emit_colors (b : Byte) (s : State) : (emit b s).colors = s.colors := rfl
@[simp] theorem emit_bp1 (b : Byte) (s : State) : (emit b s).bp1 = s.bp1 := rfl
@[simp] theorem emit_tx (b : Byte) (s : State) : (emit b s).tx = s.tx := rfl
@[simp] theorem emit_fsm (b : Byte) (s : State) : (emit b s).fsm = s.fsm := rfl
@[simp] theorem emit_inFlight (b : Byte) (s : State) : (emit b s).inFlight = s.inFlight := rfl
@[simp] theorem emit_done (b : Byte) (s : State) : (emit b s).done = s.done := rfl
@[simp] theorem emit_dmaIdx (b : Byte) (s : State) : (emit b s).dmaIdx = s.dmaIdx := rfl
@[simp] theorem emit_fault (b : Byte) (s : State) : (emit b s).fault = s.fault := rfl
@[simp] theorem emit_hwait (b : Byte) (s : State) : (emit b s).hwait = s.hwait := rfl
@[simp] theorem emit_result (b : Byte) (s : State) : (emit b s).result = s.result := rfl
@[simp] theorem emit_wire (b : Byte) (s : State) : (emit b s).wire = s.wire ++ [b] := rfl
@[simp] theorem emit_cmds (b : Byte) (s : State) : (emit b s).cmds = s.cmds := rfl
@[simp] theorem emit_sched (b : Byte) (s : State) : (emit b s).sched = s.sched := rfl
@[simp] theorem emit_turns (b : Byte) (s : State) : (emit b s).turns = s.turns := rfl
@[simp] theorem emit_lead (b : Byte) (s : State) : (emit b s).lead = s.lead := rfl

/-! `expand` (41_frame_buffer.md R457) -/

@[simp] theorem expand_cfg (s : State) : (expand s).cfg = s.cfg := rfl
@[simp] theorem expand_colors (s : State) : (expand s).colors = s.colors := rfl
@[simp] theorem expand_bp1 (s : State) : (expand s).bp1 = s.bp1 := rfl
@[simp] theorem expand_tx (s : State) : (expand s).tx = Memory.writeRun s.cfg s.tx 0 (frameData s) := rfl
@[simp] theorem expand_fsm (s : State) : (expand s).fsm = s.fsm := rfl
@[simp] theorem expand_inFlight (s : State) : (expand s).inFlight = s.inFlight := rfl
@[simp] theorem expand_done (s : State) : (expand s).done = s.done := rfl
@[simp] theorem expand_dmaIdx (s : State) : (expand s).dmaIdx = s.dmaIdx := rfl
@[simp] theorem expand_fault (s : State) : (expand s).fault = s.fault := rfl
@[simp] theorem expand_hwait (s : State) : (expand s).hwait = s.hwait := rfl
@[simp] theorem expand_result (s : State) : (expand s).result = s.result := rfl
@[simp] theorem expand_wire (s : State) : (expand s).wire = s.wire := rfl
@[simp] theorem expand_cmds (s : State) : (expand s).cmds = s.cmds := rfl
@[simp] theorem expand_sched (s : State) : (expand s).sched = s.sched := rfl
@[simp] theorem expand_turns (s : State) : (expand s).turns = s.turns := rfl
@[simp] theorem expand_lead (s : State) : (expand s).lead = s.lead := rfl

/-! `issueTransfer` (42_transfer_engine.md R501) -/

@[simp] theorem issueTransfer_cfg (s : State) : (issueTransfer s).cfg = s.cfg := rfl
@[simp] theorem issueTransfer_colors (s : State) : (issueTransfer s).colors = s.colors := rfl
@[simp] theorem issueTransfer_bp1 (s : State) : (issueTransfer s).bp1 = s.bp1 := rfl
@[simp] theorem issueTransfer_tx (s : State) : (issueTransfer s).tx = (expand s).tx := rfl
@[simp] theorem issueTransfer_fsm (s : State) : (issueTransfer s).fsm = .inflight := rfl
@[simp] theorem issueTransfer_inFlight (s : State) : (issueTransfer s).inFlight = true := rfl
@[simp] theorem issueTransfer_done (s : State) : (issueTransfer s).done = false := rfl
@[simp] theorem issueTransfer_dmaIdx (s : State) : (issueTransfer s).dmaIdx = 0 := rfl
@[simp] theorem issueTransfer_fault (s : State) : (issueTransfer s).fault = s.fault := rfl
@[simp] theorem issueTransfer_hwait (s : State) : (issueTransfer s).hwait = s.hwait := rfl
@[simp] theorem issueTransfer_result (s : State) : (issueTransfer s).result = s.result := rfl
@[simp] theorem issueTransfer_wire (s : State) : (issueTransfer s).wire = s.wire := rfl
@[simp] theorem issueTransfer_cmds (s : State) : (issueTransfer s).cmds = s.cmds := rfl
@[simp] theorem issueTransfer_sched (s : State) : (issueTransfer s).sched = s.sched := rfl
@[simp] theorem issueTransfer_turns (s : State) : (issueTransfer s).turns = s.turns := rfl
@[simp] theorem issueTransfer_lead (s : State) : (issueTransfer s).lead = s.lead := rfl

/-! What the state's readers see of an update that leaves the fields they read. -/

theorem frameData_congr {s t : State} (hc : t.cfg = s.cfg) (hb : t.bp1 = s.bp1) (hp : t.colors = s.colors) :
    frameData t = frameData s := by
  simp only [frameData, State.colorAt, hc, hb, hp]

theorem frame_congr {s t : State} (hc : t.cfg = s.cfg) (hb : t.bp1 = s.bp1) (hp : t.colors = s.colors) :
    frame t = frame s := by
  simp only [frame, frameData_congr hc hb hp, hc]

theorem txByte_congr {s t : State} (hc : t.cfg = s.cfg) (ht : t.tx = s.tx) (k : Nat) : t.txByte k = s.txByte k := by
  simp only [State.txByte, hc, ht]

end Sys2Proof.Machine
end

