-- ==== Sys2Proof/Laws/Frame.lean ====
section
/-! SUPPORT. Lengths and positions in a pixel, in the expansion and in a frame, and what the expansion leaves in the
transmit buffer. -/

namespace Sys2Proof.Machine

theorem length_packPattern (q : Pattern) : (packPattern q).length = 3 := rfl

theorem length_bytes3 (c : Config) (v : Byte) : (bytes3 c v).length = 3 := rfl

theorem length_slots (o : ColorOrder) (col : Color) : (slots o col).length = 3 := by cases o <;> rfl

/-- Pieces of one length: where byte `w * i + m` of their concatenation comes from. -/
theorem getElem?_flatMap_of_length {α : Type} {w : Nat} {f : α → List Byte} (hf : ∀ a, (f a).length = w)
    (l : List α) (i m : Nat) (hm : m < w) : (l.flatMap f)[w * i + m]? = l[i]?.bind fun a => (f a)[m]? := by
  induction l generalizing i with
  | nil => simp
  | cons a l ih =>
    rw [List.flatMap_cons]
    cases i with
    | zero => rw [List.getElem?_append_left (by rw [hf]; omega)]; simp
    | succ i =>
      rw [List.getElem?_append_right (by rw [hf, Nat.mul_succ]; omega), hf,
        show w * (i + 1) + m - w = w * i + m by rw [Nat.mul_succ]; omega, ih]
      simp

theorem length_flatMap_of_length {α : Type} {w : Nat} {f : α → List Byte} (hf : ∀ a, (f a).length = w)
    (l : List α) : (l.flatMap f).length = w * l.length := by
  induction l with
  | nil => simp
  | cons a l ih => rw [List.flatMap_cons, List.length_append, hf, ih, List.length_cons, Nat.mul_succ]; omega

theorem length_pixelBytes (c : Config) (bp1 : BitVec 9) (col : Color) : (pixelBytes c bp1 col).length = 9 := by
  rw [pixelBytes, length_flatMap_of_length (fun v => length_bytes3 c (chanOut c bp1 v)), length_slots]

theorem length_frameData (s : State) : (frameData s).length = rawLength s.cfg := by
  rw [frameData, length_flatMap_of_length (fun i => length_pixelBytes s.cfg s.bp1 (s.colorAt i)), List.length_range,
    rawLength]

theorem length_frame (s : State) : (frame s).length = txLength s.cfg := by
  rw [frame, List.length_append, length_frameData, List.length_replicate, txLength]

/-- Byte `9 * i + m` of the expansion is byte `m` of pixel `i`. -/
theorem getElem?_frameData (s : State) {i m : Nat} (hi : i < s.cfg.n) (hm : m < 9) :
    (frameData s)[9 * i + m]? = (pixelBytes s.cfg s.bp1 (s.colorAt i))[m]? := by
  rw [frameData, getElem?_flatMap_of_length (fun i => length_pixelBytes s.cfg s.bp1 (s.colorAt i)) _ i m hm,
    List.getElem?_range hi]
  rfl

/-- The expansion reads back as the frame's data. -/
theorem txByte_expand_raw {s : State} (h : Memory.wf s.cfg s.tx = true) {k : Nat} (hk : k < rawLength s.cfg) :
    (expand s).txByte k = (frameData s)[k]? := by
  have := Memory.read_writeRun_inside (base := 0) (i := k) (bs := frameData s) h
    (by rw [length_frameData]; exact hk) (by rw [length_frameData, Nat.zero_add]; exact rawLength_le_txLength _)
  rwa [Nat.zero_add] at this

/-- The expansion leaves every byte outside `raw` alone. -/
theorem txByte_expand_rest {s : State} {k : Nat} (hk : rawLength s.cfg ≤ k) : (expand s).txByte k = s.txByte k :=
  Memory.read_writeRun_outside (Or.inr (by rw [length_frameData, Nat.zero_add]; exact hk))

theorem txByte_isSome {s : State} {k : Nat} (hk : k < txLength s.cfg) : ∃ b, s.txByte k = some b :=
  Option.isSome_iff_exists.1 (Memory.read_isSome_iff.2 hk)

end Sys2Proof.Machine
end

