-- ==== Sys2Proof/Laws/Ops.lean ====
section
/-! SUPPORT. One lemma for each shared operation: what follows when it answers a next state. -/

namespace Sys2Proof.Machine

variable {s t : State}

theorem whenReady_of_ready (h : s.hostReady) (e : Host.Outcome State Fault Refusal) : whenReady s e = e := by
  simp [whenReady, h.1, h.2]

theorem whenReady_next {e : Host.Outcome State Fault Refusal} (h : whenReady s e = .next t) :
    s.hostReady ∧ e = .next t := by
  unfold whenReady at h
  split at h
  · cases h
  · next hf =>
    split at h
    · cases h
    · next hw =>
      refine ⟨⟨by simpa using hf, ?_⟩, h⟩
      cases hh : s.hwait <;> simp_all

theorem raiseFault_next {code : FaultCode} (h : raiseFault code s = .next t) : t = { s with fault := code } := by
  cases h; rfl

theorem writeCore_next {f : State → State} (h : writeCore s f = .next t) :
    (s.inFlight = true ∧ t = { s with fault := .writeBusy }) ∨ (s.inFlight = false ∧ t = f (issueTransfer s)) := by
  unfold writeCore at h
  split at h
  · next hb => exact .inl ⟨hb, raiseFault_next h⟩
  · next hb => cases h; exact .inr ⟨by simpa using hb, rfl⟩

theorem dmaBeat_next (h : dmaBeat s = .next t) :
    ∃ b, s.txByte s.dmaIdx = some b ∧ t = { s with wire := s.wire ++ [b], dmaIdx := s.dmaIdx + 1 } := by
  unfold dmaBeat at h
  split at h
  · cases h
  · next b hb => cases h; exact ⟨b, hb, rfl⟩

/-- Where the beat is enabled it goes through: no address can be missing (20_memory.md R210). -/
theorem dmaBeat_of_lt (h : s.dmaIdx < txLength s.cfg) :
    ∃ b, s.txByte s.dmaIdx = some b ∧
      dmaBeat s = .next { s with wire := s.wire ++ [b], dmaIdx := s.dmaIdx + 1 } := by
  obtain ⟨b, hb⟩ := txByte_isSome h
  exact ⟨b, hb, by simp [dmaBeat, hb, emit]⟩

theorem completionEvent_next (h : completionEvent s = .next t) : t = markComplete s := by cases h; rfl

theorem hostResume_next (h : hostResume s = .next t) : t = releaseHost s := by cases h; rfl

/-- Everything a command can do (one case a command). -/
theorem exec_next {i : Instr} (h : exec i s = .next t) :
    s.hostReady ∧
    match i with
    | .encodeChannel v => t = { s with result := encPattern s.cfg v }
    | .setColor x r g b =>
      (x.toNat < s.cfg.n ∧ t = { s with colors := s.colors.set x.toNat ⟨r, g, b⟩ }) ∨ (s.cfg.n ≤ x.toNat ∧ t = s)
    | .getColor x =>
      (x.toNat < s.cfg.n ∧ t = { s with result := packColor (s.colorAt x.toNat) }) ∨
        (s.cfg.n ≤ x.toNat ∧ t = { s with fault := .readRange })
    | .setBrightness v => t = { s with bp1 := brightnessPlusOne v }
    | .expandAll =>
      (s.inFlight = true ∧ t = { s with fault := .expandBusy }) ∨ (s.inFlight = false ∧ t = expand s)
    | .writeNb =>
      (s.inFlight = true ∧ t = { s with fault := .writeBusy }) ∨ (s.inFlight = false ∧ t = issueTransfer s)
    | .writeB =>
      (s.inFlight = true ∧ t = { s with fault := .writeBusy }) ∨
        (s.inFlight = false ∧ t = holdHost (issueTransfer s))
    | .waitComplete => (s.done = true ∧ t = s) ∨ (s.done = false ∧ t = holdHost s)
    | .pollComplete => t = { s with result := doneWord s.done } := by
  cases i with
  | encodeChannel v => obtain ⟨hr, he⟩ := whenReady_next h; cases he; exact ⟨hr, rfl⟩
  | setColor x r g b =>
    obtain ⟨hr, he⟩ := whenReady_next h
    refine ⟨hr, ?_⟩
    split at he
    · next hx => cases he; exact .inl ⟨by simpa [idxInRange] using hx, rfl⟩
    · next hx => cases he; exact .inr ⟨by simpa [idxInRange] using hx, rfl⟩
  | getColor x =>
    obtain ⟨hr, he⟩ := whenReady_next h
    refine ⟨hr, ?_⟩
    split at he
    · next hx => cases he; exact .inl ⟨by simpa [idxInRange] using hx, rfl⟩
    · next hx => exact .inr ⟨by simpa [idxInRange] using hx, raiseFault_next he⟩
  | setBrightness v => obtain ⟨hr, he⟩ := whenReady_next h; cases he; exact ⟨hr, rfl⟩
  | expandAll =>
    obtain ⟨hr, he⟩ := whenReady_next h
    refine ⟨hr, ?_⟩
    split at he
    · next hb => exact .inl ⟨hb, raiseFault_next he⟩
    · next hb => cases he; exact .inr ⟨by simpa using hb, rfl⟩
  | writeNb => obtain ⟨hr, he⟩ := whenReady_next h; exact ⟨hr, writeCore_next he⟩
  | writeB => obtain ⟨hr, he⟩ := whenReady_next h; exact ⟨hr, writeCore_next he⟩
  | waitComplete =>
    obtain ⟨hr, he⟩ := whenReady_next h
    refine ⟨hr, ?_⟩
    split at he
    · next hd => cases he; exact .inl ⟨hd, rfl⟩
    · next hd => cases he; exact .inr ⟨by simpa using hd, rfl⟩
  | pollComplete => obtain ⟨hr, he⟩ := whenReady_next h; cases he; exact ⟨hr, rfl⟩

end Sys2Proof.Machine
end

