-- ==== Sys2Proof/Laws/PerInstr.lean ====
section
/-! SUPPORT. Statements made of every instruction as syntax, one lemma a constructor. -/

namespace Sys2Proof.Laws.OpcodeRowOf

/-- The row of spec/opcode_table.json that an instruction is. -/
def rowOf : Instr → OpcodeRow
  | .encodeChannel _ => ⟨0x0000000000000001#64, 0xFFFFFFFFFFFF00FF#64⟩
  | .setColor _ _ _ _ => ⟨0x0000000000000002#64, 0xFFFF0000000000FF#64⟩
  | .getColor _ => ⟨0x0000000000000003#64, 0xFFFFFFFFFF0000FF#64⟩
  | .setBrightness _ => ⟨0x0000000000000004#64, 0xFFFFFFFFFFFF00FF#64⟩
  | .expandAll => ⟨0x0000000000000005#64, 0xFFFFFFFFFFFFFFFF#64⟩
  | .writeNb => ⟨0x0000000000000006#64, 0xFFFFFFFFFFFFFFFF#64⟩
  | .writeB => ⟨0x0000000000000007#64, 0xFFFFFFFFFFFFFFFF#64⟩
  | .waitComplete => ⟨0x0000000000000008#64, 0xFFFFFFFFFFFFFFFF#64⟩
  | .pollComplete => ⟨0x0000000000000009#64, 0xFFFFFFFFFFFFFFFF#64⟩

/-- The instruction's word has its row's fixed bits, whatever its operands. -/
def Statement (i : Instr) : Prop := encode i &&& (rowOf i).mask = (rowOf i).value

theorem formatFN_mask (op : Byte) : formatFN op &&& 0xFFFFFFFFFFFFFFFF#64 = op.setWidth 64 := by
  ext k hk
  simp only [formatFN, BitVec.getElem_and, BitVec.getElem_append, BitVec.getElem_setWidth]
  interval_cases k <;> simp [← BitVec.getLsbD_eq_getElem]

theorem formatFV_mask (op val : Byte) : formatFV op val &&& 0xFFFFFFFFFFFF00FF#64 = op.setWidth 64 := by
  ext k hk
  simp only [formatFV, BitVec.getElem_and, BitVec.getElem_append, BitVec.getElem_setWidth]
  interval_cases k <;> simp [← BitVec.getLsbD_eq_getElem]

theorem formatFI_mask (op : Byte) (idx : PixelIdx) : formatFI op idx &&& 0xFFFFFFFFFF0000FF#64 = op.setWidth 64 := by
  ext k hk
  simp only [formatFI, BitVec.getElem_and, BitVec.getElem_append, BitVec.getElem_setWidth]
  interval_cases k <;> simp [← BitVec.getLsbD_eq_getElem]

theorem formatFC_mask (op : Byte) (idx : PixelIdx) (red green blue : Byte) : formatFC op idx red green blue &&& 0xFFFF0000000000FF#64 = op.setWidth 64 := by
  ext k hk
  simp only [formatFC, BitVec.getElem_and, BitVec.getElem_append, BitVec.getElem_setWidth]
  interval_cases k <;> simp [← BitVec.getLsbD_eq_getElem]

theorem encodeChannel (val : Byte) : Statement (.encodeChannel val) := formatFV_mask _ _

theorem setColor (idx : PixelIdx) (red green blue : Byte) : Statement (.setColor idx red green blue) := formatFC_mask _ _ _ _ _

theorem getColor (idx : PixelIdx) : Statement (.getColor idx) := formatFI_mask _ _

theorem setBrightness (val : Byte) : Statement (.setBrightness val) := formatFV_mask _ _

theorem expandAll : Statement (.expandAll) := formatFN_mask _

theorem writeNb : Statement (.writeNb) := formatFN_mask _

theorem writeB : Statement (.writeB) := formatFN_mask _

theorem waitComplete : Statement (.waitComplete) := formatFN_mask _

theorem pollComplete : Statement (.pollComplete) := formatFN_mask _

end Sys2Proof.Laws.OpcodeRowOf
end

