-- ==== Sys2Proof/Laws/Step.lean ====
section
/-! SUPPORT. Everything a step can do: which agent's step it is, and on what state. -/

namespace Sys2Proof.Machine

variable {s t : State}

/-- A choice between agents writes the model's own fields only. -/
theorem takeTurn_snd (s : State) :
    ∃ sc tu ld, (takeTurn s).2 = { s with sched := sc, turns := tu, lead := ld } := by
  unfold takeTurn
  split
  · exact ⟨_, s.turns, s.lead, rfl⟩
  · next h =>
    split
    · exact ⟨[], s.turns, s.lead + 1, by simp [h]⟩
    · exact ⟨[], s.turns + 1, 0, by simp [h]⟩

/-- How many more host steps can go before the hardware's next chosen step, as the schedule fields say it: every choice
of the host makes it smaller (42_transfer_engine.md R521). -/
def patience (s : State) : Nat := s.sched.length + (Config.freeLead s.turns - s.lead)

theorem patience_lt_of_takeTurn_host (h : (takeTurn s).1 = .host) : patience (takeTurn s).2 < patience s := by
  unfold takeTurn patience at *
  split at h
  · next hs => simp only [hs, List.length_cons]; omega
  · next hs =>
    split at h
    · next hl => simp only [if_pos hl, hs]; omega
    · cases h

/-- A round of the poll loop: `result` is `done`, and the loop is over where `done = 1`. -/
theorem pollRound_of_ready {rest : List HostAct} (h : s.hostReady) :
    pollRound rest s = .next { s with result := doneWord s.done, cmds := if s.done then rest else s.cmds } := by
  have he : exec .pollComplete s = .next { s with result := doneWord s.done } := whenReady_of_ready h _
  rw [pollRound, he]
  cases s.done <;> rfl

theorem pollRound_next {rest : List HostAct} (h : pollRound rest s = .next t) :
    s.hostReady ∧ t = { s with result := doneWord s.done, cmds := if s.done then rest else s.cmds } := by
  have hr : s.hostReady := by
    unfold pollRound at h
    split at h
    · next he => exact (exec_next he).1
    · cases h
    · cases h
  rw [pollRound_of_ready hr] at h
  exact ⟨hr, (Host.Outcome.next.inj h).symm⟩

theorem hardwareAgent_dma_or_completion {a : Agent} (h : hardwareAgent s = some a) :
    (a = .dma ∧ dmaEnabled s = true) ∨ (a = .completion ∧ completionEnabled s = true) := by
  unfold hardwareAgent at h
  split at h
  · cases h; exact .inl ⟨rfl, ‹_›⟩
  · split at h
    · cases h; exact .inr ⟨rfl, ‹_›⟩
    · cases h

theorem dmaEnabled_iff : dmaEnabled s = true ↔ s.fault = .none ∧ s.fsm = .inflight ∧ s.dmaIdx < txLength s.cfg := by
  simp [dmaEnabled, and_assoc]

theorem completionEnabled_iff :
    completionEnabled s = true ↔ s.fault = .none ∧ s.fsm = .inflight ∧ s.dmaIdx = txLength s.cfg := by
  simp [completionEnabled, and_assoc]

/-- A step that answers a next state is the step of one enabled agent, on the state with the model's own schedule
fields moved on. -/
theorem step_next (h : step s = .next t) :
    s.fault = .none ∧ ∃ a sc tu ld, agentEnabled a s = true ∧
      agentStep a { s with sched := sc, turns := tu, lead := ld } = .next t := by
  unfold step advance at h
  split at h
  · cases h
  · next hf =>
    have hf : s.fault = .none := by simpa using hf
    refine ⟨hf, ?_⟩
    split at h
    · unfold nothingEnabled at h; split at h <;> cases h
    · next hh _ => exact ⟨.host, s.sched, s.turns, s.lead, hh, h⟩
    · next a _ ha =>
      obtain ⟨rfl, he⟩ | ⟨rfl, he⟩ := hardwareAgent_dma_or_completion ha
      · exact ⟨.dma, s.sched, s.turns, s.lead, he, h⟩
      · exact ⟨.completion, s.sched, s.turns, s.lead, he, h⟩
    · next a hh ha =>
      obtain ⟨sc, tu, ld, hu⟩ := takeTurn_snd s
      split at h
      · next u hu' => rw [hu'] at hu; subst hu; exact ⟨.host, sc, tu, ld, hh, h⟩
      · next u hu' =>
        rw [hu'] at hu; subst hu
        obtain ⟨rfl, he⟩ | ⟨rfl, he⟩ := hardwareAgent_dma_or_completion ha
        · exact ⟨.dma, sc, tu, ld, he, h⟩
        · exact ⟨.completion, sc, tu, ld, he, h⟩

/-- A host step that answers a next state is the resume step, a decoded command or a round of a poll loop. -/
theorem hostStep_next (h : hostStep s = .next t) :
    (s.hwait = .waitDone ∧ t = releaseHost s) ∨
    (s.hwait = .run ∧ ∃ w rest i, s.cmds = .issue w :: rest ∧ decode w = .ok i ∧
      exec i { s with cmds := rest } = .next t) ∨
    (s.hwait = .run ∧ ∃ rest, s.cmds = .pollUntilDone :: rest ∧
      t = { s with result := doneWord s.done, cmds := if s.done then rest else s.cmds }) := by
  unfold hostStep at h
  split at h
  · next hw => exact .inl ⟨hw, hostResume_next h⟩
  · next hw =>
    refine .inr ?_
    split at h
    · cases h
    · next rest hc => exact .inr ⟨hw, rest, hc, (pollRound_next h).2⟩
    · next w rest hc =>
      split at h
      · cases h
      · next i hd => exact .inl ⟨hw, w, rest, i, hc, hd, h⟩

/-- Everything a step that answers a next state can do: a resume, a command, a poll round, a beat or a completion. -/
theorem step_cases (h : step s = .next t) :
    s.fault = .none ∧ ∃ sc tu ld,
      (s.hwait = .waitDone ∧ s.done = true ∧ t = { s with hwait := .run, sched := sc, turns := tu, lead := ld }) ∨
      (s.hwait = .run ∧ ∃ w rest i, s.cmds = .issue w :: rest ∧ decode w = .ok i ∧
        exec i { s with cmds := rest, sched := sc, turns := tu, lead := ld } = .next t) ∨
      (s.hwait = .run ∧ ∃ rest, s.cmds = .pollUntilDone :: rest ∧
        t = { s with
              result := doneWord s.done, cmds := if s.done then rest else s.cmds
              sched := sc, turns := tu, lead := ld }) ∨
      (s.fsm = .inflight ∧ s.dmaIdx < txLength s.cfg ∧ ∃ b, s.txByte s.dmaIdx = some b ∧
        t = { s with wire := s.wire ++ [b], dmaIdx := s.dmaIdx + 1, sched := sc, turns := tu, lead := ld }) ∨
      (s.fsm = .inflight ∧ s.dmaIdx = txLength s.cfg ∧
        t = { s with done := true, inFlight := false, fsm := .idle, sched := sc, turns := tu, lead := ld }) := by
  obtain ⟨hf, a, sc, tu, ld, he, ha⟩ := step_next h
  refine ⟨hf, sc, tu, ld, ?_⟩
  cases a with
  | host =>
    obtain ⟨hw, rfl⟩ | hc | hp := hostStep_next ha
    · simp only [agentEnabled, hostEnabled, hf, decide_true, Bool.true_and] at he
      have hw : s.hwait = .waitDone := hw
      rw [hw] at he
      exact .inl ⟨hw, he, rfl⟩
    · exact .inr (.inl hc)
    · exact .inr (.inr (.inl hp))
  | dma =>
    obtain ⟨-, h1, h2⟩ := dmaEnabled_iff.1 he
    obtain ⟨b, hb, rfl⟩ := dmaBeat_next ha
    exact .inr (.inr (.inr (.inl ⟨h1, h2, b, hb, rfl⟩)))
  | completion =>
    obtain ⟨-, h1, h2⟩ := completionEnabled_iff.1 he
    rw [completionEvent_next ha]
    exact .inr (.inr (.inr (.inr ⟨h1, h2, rfl⟩)))

/-! ### The step, by which agents are enabled -/

theorem step_of_fault (h : s.fault ≠ .none) : step s = .fault (.stopped s.fault) := by
  simp [step, advance, h]

theorem step_of_nothing (hf : s.fault = .none) (hh : hostEnabled s = false) (ha : hardwareAgent s = none) :
    step s = nothingEnabled s := by
  simp only [step, advance, hf, hh, ha]; rfl

theorem step_of_host (hf : s.fault = .none) (hh : hostEnabled s = true) (ha : hardwareAgent s = none) :
    step s = hostStep s := by
  simp only [step, advance, hf, hh, ha]; rfl

theorem step_of_hardware {a : Agent} (hf : s.fault = .none) (hh : hostEnabled s = false)
    (ha : hardwareAgent s = some a) : step s = agentStep a s := by
  simp only [step, advance, hf, hh, ha]; rfl

theorem step_of_choice {a : Agent} (hf : s.fault = .none) (hh : hostEnabled s = true)
    (ha : hardwareAgent s = some a) :
    step s = match takeTurn s with
      | (.host, t) => hostStep t
      | (.hardware, t) => agentStep a t := by
  simp only [step, advance, hf, hh, ha]; rfl

/-- A step, whatever it answers: the sticky fault, no agent enabled, or one enabled agent's step on the state with the
model's own schedule fields moved on. -/
theorem step_eq (s : State) :
    (s.fault ≠ .none ∧ step s = .fault (.stopped s.fault)) ∨
    (s.fault = .none ∧ hostEnabled s = false ∧ hardwareAgent s = none ∧ step s = nothingEnabled s) ∨
    (s.fault = .none ∧ ∃ a sc tu ld, agentEnabled a s = true ∧
      step s = agentStep a { s with sched := sc, turns := tu, lead := ld }) := by
  by_cases hf : s.fault = .none
  swap
  · exact .inl ⟨hf, step_of_fault hf⟩
  refine .inr ?_
  have hwn : ∀ a, hardwareAgent s = some a → agentEnabled a s = true := by
    intro a ha
    obtain ⟨rfl, he⟩ | ⟨rfl, he⟩ := hardwareAgent_dma_or_completion ha <;> exact he
  cases hh : hostEnabled s with
  | false =>
    cases ha : hardwareAgent s with
    | none => exact .inl ⟨hf, rfl, rfl, step_of_nothing hf hh ha⟩
    | some a => exact .inr ⟨hf, a, s.sched, s.turns, s.lead, hwn a ha, step_of_hardware hf hh ha⟩
  | true =>
    cases ha : hardwareAgent s with
    | none => exact .inr ⟨hf, .host, s.sched, s.turns, s.lead, hh, step_of_host hf hh ha⟩
    | some a =>
      obtain ⟨sc, tu, ld, hu⟩ := takeTurn_snd s
      have hs := step_of_choice hf hh ha
      generalize takeTurn s = p at hu hs
      obtain ⟨tn, u⟩ := p
      cases hu
      cases tn with
      | host => exact .inr ⟨hf, .host, sc, tu, ld, hh, hs⟩
      | hardware => exact .inr ⟨hf, a, sc, tu, ld, hwn a ha, hs⟩

end Sys2Proof.Machine
end

