-- ==== Sys2Proof/Laws/Run.lean ====
section
/-! SUPPORT. Runs of several steps, one step at a time. -/

namespace Sys2Proof.Machine

variable {s t u : State} {k : Nat}

theorem run_zero (s : State) : Sys2Proof.core.run 0 s = .next s := rfl

theorem run_succ_of_next (h : step s = .next t) : Sys2Proof.core.run (k + 1) s = Sys2Proof.core.run k t := by
  simp only [Host.Core.run, Sys2Proof.core, h]

theorem run_succ_of_fault {f : Fault} (h : step s = .fault f) : Sys2Proof.core.run (k + 1) s = .fault f := by
  simp only [Host.Core.run, Sys2Proof.core, h]

theorem run_succ_of_refused {r : Refusal} (h : step s = .refused r) :
    Sys2Proof.core.run (k + 1) s = .refused r := by
  simp only [Host.Core.run, Sys2Proof.core, h]

theorem runsTo_zero : RunsTo 0 s t ↔ t = s :=
  ⟨fun h => (Host.Outcome.next.inj h).symm, fun h => h ▸ run_zero s⟩

/-- A run of `k + 1` steps is one step and a run of `k`. -/
theorem runsTo_succ : RunsTo (k + 1) s t ↔ ∃ u, step s = .next u ∧ RunsTo k u t := by
  constructor
  · intro h
    cases hs : step s with
    | next u => exact ⟨u, rfl, by rwa [RunsTo, ← run_succ_of_next hs]⟩
    | fault f => rw [RunsTo, run_succ_of_fault hs] at h; cases h
    | refused r => rw [RunsTo, run_succ_of_refused hs] at h; cases h
  · rintro ⟨u, hs, h⟩
    rwa [RunsTo, run_succ_of_next hs]

/-- A run of `j + k` steps is one of `j` and then one of `k`. -/
theorem runsTo_add {j : Nat} : RunsTo (j + k) s t ↔ ∃ u, RunsTo j s u ∧ RunsTo k u t := by
  induction j generalizing s with
  | zero => simp [runsTo_zero]
  | succ j ih =>
    rw [show j + 1 + k = (j + k) + 1 by omega, runsTo_succ]
    simp only [ih, runsTo_succ]
    constructor
    · rintro ⟨v, hv, u, hu, ht⟩; exact ⟨u, ⟨v, hv, hu⟩, ht⟩
    · rintro ⟨u, ⟨v, hv, hu⟩, ht⟩; exact ⟨v, hv, u, hu, ht⟩

/-- What every step keeps holds after every run that starts with it. -/
theorem runsTo_induction {P : State → Prop} (hP : ∀ s t, P s → step s = .next t → P t)
    (h : RunsTo k s t) (hs : P s) : P t := by
  induction k generalizing s with
  | zero => exact runsTo_zero.1 h ▸ hs
  | succ k ih => obtain ⟨u, hu, h⟩ := runsTo_succ.1 h; exact ih h (hP s u hs hu)

end Sys2Proof.Machine
end

