-- ==== Sys2Proof/Tests/Slice0.lean ====
section
/-! SUPPORT. The model's own tests, and for each statement with hypotheses a state and operands that meet them. Expected
values are the spec's: 30_encoding.md R311 to R318 and the tables of 95_test_vectors.md, by section. -/

namespace Sys2Proof.Tests

open Sys2Proof.Machine Sys2Proof.Claims

/-! ### Small states -/

/-- N = 1, one latch byte, T = 10 (95_test_vectors.md program 3). -/
def oneCfg : Config :=
  { n := 1, order := .grb, invert := false, serialClockHz := 160000, cieEnable := false,
    cieTable := Vector.replicate 256 0#8, maxTransferBytes := 10 }

/-- Idle, no WRITE since construction. -/
def fresh : State := { State.reset with cfg := oneCfg, colors := [⟨255#8, 0#8, 0#8⟩], bp1 := 256#9 }

/-- The bytes of `fresh`'s frame buffer after its expansion, as the transmit buffer lists them. -/
def sentTx : Memory :=
  [(0, 0x92#8), (1, 0x49#8), (2, 0x24#8), (3, 0xDB#8), (4, 0x6D#8), (5, 0xB6#8), (6, 0x92#8), (7, 0x49#8), (8, 0x24#8)]

/-- A transfer issued, no beat taken. -/
def issued : State := { fresh with tx := sentTx, fsm := .inflight, inFlight := true }

/-- Two beats taken. -/
def midway : State := { issued with dmaIdx := 2, wire := [0x92#8, 0x49#8] }

/-- All ten beats taken, completion pending. -/
def lastBeat : State :=
  { issued with
    dmaIdx := 10
    wire := [0x92#8, 0x49#8, 0x24#8, 0xDB#8, 0x6D#8, 0xB6#8, 0x92#8, 0x49#8, 0x24#8, 0x00#8] }

/-- The transfer completed. -/
def complete : State := { lastBeat with fsm := .idle, inFlight := false, done := true }

/-- Faulted. -/
def faulted : State := { fresh with fault := .readRange }

/-- The invariant as a check that computes; `sent` is what was on `wire` before the transfer in flight. -/
def invCheck (sent : List Byte) (s : State) : Bool :=
  s.cfg.wf && decide (s.colors.length = s.cfg.n) && decide (1 ≤ s.bp1.toNat) && decide (s.bp1.toNat ≤ 256)
    && Memory.wf s.cfg s.tx
    && (List.range (txLength s.cfg)).all (fun k => decide (k < rawLength s.cfg) || s.txByte k == some (latchByte s.cfg))
    && decide (s.fsm ≠ .pending) && (s.inFlight == decide (s.fsm = .inflight)) && decide (s.dmaIdx ≤ txLength s.cfg)
    && (!decide (s.fsm = .inflight) || !s.done) && (!s.done || decide (s.dmaIdx = txLength s.cfg))
    && (!(decide (s.fsm = .idle) && !s.done) || (decide (s.wire = []) && decide (s.dmaIdx = 0)))
    && (!decide (s.fsm = .inflight) ||
        decide (s.wire = sent ++ (List.range s.dmaIdx).map fun k => (s.txByte k).getD 0#8))

theorem inv_of_invCheck {sent : List Byte} {s : State} (h : invCheck sent s = true) : s.Inv := by
  simp only [invCheck, Bool.and_eq_true, decide_eq_true_eq, List.all_eq_true, List.mem_range, Bool.or_eq_true,
    beq_iff_eq, Bool.not_eq_true', decide_eq_false_iff_not, Bool.and_eq_false_iff] at h
  obtain ⟨⟨⟨⟨⟨⟨⟨⟨⟨⟨⟨⟨h1, h2⟩, h3⟩, h4⟩, h5⟩, h6⟩, h7⟩, h8⟩, h9⟩, h10⟩, h11⟩, h12⟩, h13⟩ := h
  refine ⟨h1, h2, h3, h4, h5, fun k hk hk' => (h6 k hk').resolve_left (Nat.not_lt.2 hk), h7, by simp [h8], h9,
    fun hi => h10.resolve_left fun hn => hn hi, fun hd => h11.resolve_left (by simp [hd]), fun hi hd => ?_,
    fun hi => ⟨sent, h13.resolve_left fun hn => hn hi⟩⟩
  exact h12.resolve_left (by simp [hi, hd])

theorem fresh_inv : fresh.Inv := inv_of_invCheck (sent := []) (by decide +kernel)

theorem issued_inv : issued.Inv := inv_of_invCheck (sent := []) (by decide +kernel)

theorem midway_inv : midway.Inv := inv_of_invCheck (sent := []) (by decide +kernel)

theorem lastBeat_inv : lastBeat.Inv := inv_of_invCheck (sent := []) (by decide +kernel)

theorem complete_inv : complete.Inv := inv_of_invCheck (sent := []) (by decide +kernel)

/-- A run of `k` steps reaches a state with `p`. -/
def reaches (k : Nat) (s : State) (p : State → Bool) : Bool :=
  match Sys2Proof.core.run k s with
  | .next t => p t
  | .fault _ => false
  | .refused _ => false

theorem runsTo_of_reaches {k : Nat} {s : State} {p : State → Bool} (h : reaches k s p = true) :
    ∃ t, RunsTo k s t ∧ p t = true := by
  unfold reaches at h
  split at h
  · next t ht => exact ⟨t, ht, h⟩
  · cases h
  · cases h

theorem of_reaches {k : Nat} {s t : State} {p : State → Bool} (h : reaches k s p = true) (ht : RunsTo k s t) :
    p t = true := by
  unfold reaches at h
  rw [ht] at h
  exact h

/-! ### Well-formedness: each check refuses an ill-formed term -/

theorem test_wf_accepts : oneCfg.wf = true ∧ Config.atReset.wf = true ∧
    Config.wf { oneCfg with n := 65536, maxTransferBytes := 589825 } = true := by decide +kernel

theorem test_wf_refuses_no_pixel : Config.wf { oneCfg with n := 0 } = false := by decide +kernel

theorem test_wf_refuses_too_many_pixels :
    Config.wf { oneCfg with n := 65537, maxTransferBytes := 589834 } = false := by decide +kernel

theorem test_wf_refuses_no_clock : Config.wf { oneCfg with serialClockHz := 0 } = false := by decide +kernel

theorem test_wf_refuses_long_transfer : Config.wf { oneCfg with maxTransferBytes := 9 } = false := by decide +kernel

/-- The check `1 ≤ T`: the empty transfer it refuses has no pixel either. -/
theorem test_wf_refuses_empty_transfer :
    txLength { oneCfg with n := 0, serialClockHz := 1 } = 0 ∧
      Config.wf { oneCfg with n := 0, serialClockHz := 1 } = false := by decide +kernel

theorem test_construct_refuses :
    construct { oneCfg with n := 0 } ⟨[], 0#8, [], 0#24⟩ = .refused .illFormedConfig ∧
      construct oneCfg ⟨[], 0#8, List.replicate 9 0#8, 0#24⟩ = .refused .illFormedConfig ∧
      construct oneCfg ⟨[⟨0#8, 0#8, 0#8⟩], 0#8, [], 0#24⟩ = .refused .illFormedConfig := by and_intros <;> rfl

theorem test_asm_refuses_wrong_count :
    AsmLine.wf ⟨.expandAll, [.dec [1]]⟩ = false ∧ AsmLine.wf ⟨.getColor, []⟩ = false := by decide

theorem test_asm_refuses_wide_operand :
    AsmLine.wf ⟨.setBrightness, [.dec [2, 5, 6]]⟩ = false ∧ AsmLine.wf ⟨.getColor, [.hex [1, 0, 0, 0, 0]]⟩ = false := by
  decide

theorem test_asm_refuses_no_digit : AsmLine.wf ⟨.setBrightness, [.dec []]⟩ = false ∧
    AsmLine.wf ⟨.getColor, [.hex []]⟩ = false := by decide

/-- `SET_COLOR 1, 255, 0, 0` and `ENCODE_CHANNEL 0xA5` (30_encoding.md R318). -/
theorem test_asm_spec_examples :
    (assemble ⟨.setColor, [.dec [1], .dec [2, 5, 5], .dec [0], .dec [0]]⟩).map encode = some 0x00000000FF000102#64 ∧
      (assemble ⟨.encodeChannel, [.hex [10, 5]]⟩).map encode = some 0x000000000000A501#64 := by decide

/-- A state that is not in canonical form: an entry that an unlisted byte already reads as, and two out of order. -/
theorem test_memory_wf_refuses : Memory.wf oneCfg [(0, 0x00#8)] = false ∧ Memory.wf oneCfg [(9, 0x00#8)] = false ∧
    Memory.wf oneCfg [(2, 0x01#8), (1, 0x01#8)] = false ∧ Memory.wf oneCfg [(10, 0x01#8)] = false ∧
    Memory.wf oneCfg sentTx = true := by decide

/-! ### Decoding: words written out bit by bit from 30_encoding.md R311 and R313 -/

/-- `FV`: reserved 48, val 8, op 8. -/
theorem test_decode_encodeChannel :
    decode ((0b000000000000000000000000000000000000000000000000#48 ++ 0b10100101#8) ++ 0b00000001#8) =
      .ok (.encodeChannel 0xA5#8) := by decide

/-- `FC`: reserved 16, blue, green, red, index high, index low, op. -/
theorem test_decode_setColor :
    decode 0b0000000000000000001100110010001000010001000100100011010000000010#64 =
      .ok (.setColor 0x1234#16 0x11#8 0x22#8 0x33#8) := by decide

/-- `FI`: reserved 40, index high, index low, op. -/
theorem test_decode_getColor :
    decode 0b0000000000000000000000000000000000000000000100100011010000000011#64 = .ok (.getColor 0x1234#16) := by decide

theorem test_decode_setBrightness :
    decode 0b0000000000000000000000000000000000000000000000000111111100000100#64 = .ok (.setBrightness 127#8) := by decide

theorem test_decode_expandAll :
    decode 0b0000000000000000000000000000000000000000000000000000000000000101#64 = .ok .expandAll := by decide

theorem test_decode_writeNb :
    decode 0b0000000000000000000000000000000000000000000000000000000000000110#64 = .ok .writeNb := by decide

theorem test_decode_writeB :
    decode 0b0000000000000000000000000000000000000000000000000000000000000111#64 = .ok .writeB := by decide

theorem test_decode_waitComplete :
    decode 0b0000000000000000000000000000000000000000000000000000000000001000#64 = .ok .waitComplete := by decide

theorem test_decode_pollComplete :
    decode 0b0000000000000000000000000000000000000000000000000000000000001001#64 = .ok .pollComplete := by decide

/-- 95_test_vectors.md 6: the refused words. -/
theorem test_decode_refuses :
    decode 0x0000000000000000#64 = .error (.reservedOpcode 0x00#8) ∧
      decode 0x000000000000000A#64 = .error (.reservedOpcode 0x0A#8) ∧
      decode 0x00000000000000FF#64 = .error (.reservedOpcode 0xFF#8) ∧
      decode 0x0000000000010001#64 = .error (.reservedBits 0x01#8) ∧
      decode 0x0000000001000003#64 = .error (.reservedBits 0x03#8) ∧
      decode 0x0001000000000002#64 = .error (.reservedBits 0x02#8) ∧
      decode 0x8000000000000009#64 = .error (.reservedBits 0x09#8) := by decide

theorem test_decodeTableWord :
    decodeTableWord 64 0x3322111234 = none ∧ decodeTableWord 64 0x0000332211123402 = some (.setColor 0x1234 0x11 0x22 0x33) ∧
      decodeTableWord 8 0x05 = some .expandAll ∧ decodeTableWord 80 (2 ^ 70 + 5) = none := by decide

/-- The word is the first step after reset. -/
theorem test_withFetchWord :
    step (State.reset.withFetchWord 64 0xFF04) = .next { State.reset with bp1 := 256#9 } := rfl

/-- It is also the next step where a beat could go first. -/
theorem test_withFetchWord_in_flight :
    step (midway.withFetchWord 64 0x0304) = .next { midway with bp1 := 4#9 } := rfl

/-! ### Commands and hardware steps -/

/-- 95_test_vectors.md 2.2. -/
theorem test_encodeChannel :
    exec (.encodeChannel 0x55#8) midway = .next { midway with result := 0x9A69A6#24 } ∧
      exec (.encodeChannel 0x80#8) { fresh with bp1 := 1#9, cfg := { oneCfg with invert := true } } =
        .next { fresh with bp1 := 1#9, cfg := { oneCfg with invert := true }, result := 0x2DB6DB#24 } := by
  and_intros <;> rfl

/-- 95_test_vectors.md 2.1, entries 0x0B, 0x42 and 0x96 (inverted). -/
theorem test_channelPattern : channelPattern 0x0B#8 = 0x924D36#24 ∧ channelPattern 0x42#8 = 0x9A4934#24 ∧
    encPattern { oneCfg with invert := true } 0x96#8 = 0x2D964B#24 := by decide

/-- 40_bit_expander.md R401: the sixteen nibble patterns. -/
theorem test_nibblePattern : (List.range 16).map (fun n => nibblePattern (BitVec.ofNat 4 n)) =
    [0x924, 0x926, 0x934, 0x936, 0x9A4, 0x9A6, 0x9B4, 0x9B6, 0xD24, 0xD26, 0xD34, 0xD36, 0xDA4, 0xDA6, 0xDB4, 0xDB6] := by
  decide +kernel

/-- 95_test_vectors.md 2.3. -/
theorem test_decPattern : validPattern oneCfg 0xD349A6#24 = true ∧ decPattern oneCfg 0xD349A6#24 = 165#8 ∧
    validPattern oneCfg 0x924925#24 = false ∧ validPattern oneCfg 0x124924#24 = false ∧
    validPattern { oneCfg with invert := true } 0x924924#24 = false ∧
    decPattern { oneCfg with invert := true } 0x249249#24 = 255#8 := by decide

/-- 95_test_vectors.md 3.2: the last pixel of three, and the first index out of range. -/
theorem test_setColor :
    exec (.setColor 2 16 32 48) State.reset =
      .next { State.reset with colors := [⟨0, 0, 0⟩, ⟨0, 0, 0⟩, ⟨16, 32, 48⟩] } ∧
      exec (.setColor 3 1 2 3) State.reset = .next State.reset := by and_intros <;> rfl

/-- 95_test_vectors.md 3.3. -/
theorem test_getColor :
    exec (.getColor 1) { State.reset with colors := [⟨255, 0, 0⟩, ⟨0x12, 0x34, 0x56⟩, ⟨0x10, 0x20, 0x30⟩] } =
        .next { State.reset with
          colors := [⟨255, 0, 0⟩, ⟨0x12, 0x34, 0x56⟩, ⟨0x10, 0x20, 0x30⟩], result := 0x123456#24 } ∧
      exec (.getColor 3) State.reset = .next { State.reset with fault := .readRange } := by and_intros <;> rfl

/-- 95_test_vectors.md 3.4. -/
theorem test_setBrightness :
    exec (.setBrightness 128#8) fresh = .next { fresh with bp1 := 129#9 } ∧
      exec (.setBrightness 255#8) midway = .next { midway with bp1 := 256#9 } := by and_intros <;> rfl

/-- 95_test_vectors.md 3.1. -/
theorem test_scale : scale 200#8 255#9 = 199#8 ∧ scale 255#8 129#9 = 128#8 ∧ scale 129#8 2#9 = 1#8 ∧
    scale 255#8 1#9 = 0#8 := by decide

/-- 95_test_vectors.md 3.5, RGB and then GRB with brightness 127. -/
theorem test_pixelBytes :
    pixelBytes { oneCfg with order := .rgb } 256#9 ⟨18, 52, 86⟩ =
        [0x92, 0x69, 0x34, 0x93, 0x69, 0xA4, 0x9A, 0x69, 0xB4] ∧
      pixelBytes oneCfg 128#9 ⟨200, 100, 50⟩ = [0x93, 0x69, 0x34, 0x9B, 0x49, 0xA4, 0x92, 0x6D, 0x26] := by
  decide +kernel

/-- 95_test_vectors.md 3.5 with the table `CT(x) = (x*x) >> 8`: scaling first, the table second. -/
theorem test_pixelBytes_corrected :
    pixelBytes
        { oneCfg with
          cieEnable := true
          cieTable := Vector.ofFn fun x : Fin 256 => BitVec.ofNat 8 ((x.val * x.val) >>> 8) }
        128#9 ⟨255, 128, 16⟩ =
      [0x92, 0x69, 0x24, 0x93, 0x6D, 0xB6, 0x92, 0x49, 0x24] := by decide +kernel

/-- 95_test_vectors.md 3.5, first row, and 5. -/
theorem test_expandAll : exec .expandAll fresh = .next { fresh with tx := sentTx } ∧
    exec .expandAll midway = .next { midway with fault := .expandBusy } := by and_intros <;> rfl

/-- 95_test_vectors.md 4.2 and 5. -/
theorem test_writeNb : exec .writeNb fresh = .next issued ∧
    exec .writeNb midway = .next { midway with fault := .writeBusy } := by and_intros <;> rfl

/-- 95_test_vectors.md 4.3 and 5. -/
theorem test_writeB : exec .writeB complete = .next { issued with hwait := .waitDone, wire := complete.wire } ∧
    exec .writeB midway = .next { midway with fault := .writeBusy } := by and_intros <;> rfl

/-- 95_test_vectors.md 4.4. -/
theorem test_waitComplete : exec .waitComplete complete = .next complete ∧
    exec .waitComplete midway = .next { midway with hwait := .waitDone } := by and_intros <;> rfl

/-- 95_test_vectors.md 4.5. -/
theorem test_pollComplete : exec .pollComplete complete = .next { complete with result := 1#24 } ∧
    exec .pollComplete { midway with result := 9#24 } = .next { midway with result := 0#24 } := by and_intros <;> rfl

/-- 95_test_vectors.md 4.2, beats 3 and 10 (its last byte is the latch byte). -/
theorem test_dmaBeat :
    step midway = .next { midway with dmaIdx := 3, wire := [0x92, 0x49, 0x24] } ∧
      step { lastBeat with dmaIdx := 9, wire := lastBeat.wire.take 9 } = .next lastBeat := by and_intros <;> rfl

/-- 95_test_vectors.md program 3: a poll before the completion reads 0 and the loop goes on; one after it reads 1 and the
loop is over. -/
theorem test_pollLoop :
    step { midway with cmds := [.pollUntilDone], sched := [.host], result := 5#24 } =
        .next { midway with cmds := [.pollUntilDone] } ∧
      step { complete with cmds := [.pollUntilDone, .issue 0x7#64] } =
        .next { complete with cmds := [.issue 0x7#64], result := 1#24 } := by and_intros <;> rfl

theorem test_completionEvent : step lastBeat = .next complete := rfl

theorem test_hostResume : step { complete with hwait := .waitDone } = .next complete := rfl

/-- 95_test_vectors.md program 5: the hang. -/
theorem test_hang : step { fresh with hwait := .waitDone } = .fault .waitNeverEnds := rfl

/-- 95_test_vectors.md 4.1. -/
theorem test_latchCount : ([1, 159999, 160000, 319999, 1000000, 2400000, 48000000].map fun hz =>
    latchCount { oneCfg with serialClockHz := hz }) = [0, 0, 1, 1, 6, 15, 300] := by decide

theorem test_codes : Fsm.idle.code = 0 ∧ Fsm.pending.code = 1 ∧ Fsm.inflight.code = 2 ∧ orderCode .grb = 0 ∧
    orderCode .rgb = 1 := by decide

/-! ### Hypotheses: for each statement, a state and operands that meet them, clause by clause -/

theorem test_hyps_DecodeAndEncodeAreInverse : decode 0x0000332211123402#64 = .ok (.setColor 0x1234 0x11 0x22 0x33) := by
  decide

theorem test_hyps_DecoderAcceptsExactlyTheTableRows : ∃ r ∈ opcodeTable, r.matches 0x0000000000000203#64 = true := by
  decide

/-- One reserved bit of each format; then the host's turn alone, the host's turn in a transfer, and a beat before it. -/
theorem test_hyps_ReservedWordsAreRefusedAndNeverExecuted :
    (opField 0x0000000000000000#64 = 0x00#8 ∧ 0x0A#8 ≤ opField 0x000000000000000A#64) ∧
      (reservedFrom (opField 0x0000000000000106#64) = some 8 ∧ 2 ^ 8 ≤ (0x0000000000000106#64).toNat) ∧
      (reservedFrom (opField 0x0000000000010001#64) = some 16 ∧ 2 ^ 16 ≤ (0x0000000000010001#64).toNat) ∧
      (reservedFrom (opField 0x0000000001000003#64) = some 24 ∧ 2 ^ 24 ≤ (0x0000000001000003#64).toNat) ∧
      (reservedFrom (opField 0x0001000000000002#64) = some 48 ∧ 2 ^ 48 ≤ (0x0001000000000002#64).toNat) ∧
      decode 0x106#64 = .error (.reservedBits 0x06#8) ∧
      (State.hostReady { fresh with cmds := [.issue 0x106#64] } ∧
        hardwareAgent { fresh with cmds := [.issue 0x106#64] } = none) ∧
      (State.hostReady { midway with cmds := [.issue 0x106#64], sched := [.host] } ∧
        hardwareAgent { midway with cmds := [.issue 0x106#64], sched := [.host] } = some .dma) := by decide +kernel

theorem test_hyps_ReservedWordsAreRefused_after_a_beat :
    step { midway with cmds := [.issue 0x106#64], sched := [.hardware] } =
      .next { midway with cmds := [.issue 0x106#64], dmaIdx := 3, wire := [0x92, 0x49, 0x24] } := rfl

theorem test_hyps_AssemblerTextRoundTrips :
    assemble ⟨.getColor, [.dec [6, 5, 5, 3, 5]]⟩ = some (.getColor 65535) ∧
      assemble ⟨.getColor, [.dec [6, 5, 5, 3, 6]]⟩ = none := by decide

/-- The first and last triples, of a byte and of a nibble, and the last bit to leave. -/
theorem test_hyps_ChannelPatternLayout : (0 < 8 ∧ 7 < 8) ∧ (0 < 4 ∧ 3 < 4) ∧ 23 < 24 := by decide

/-- The last bit, and two equal encodings; a pattern and the same with its polarity undone. -/
theorem test_hyps_DecodingTheWaveformUndoesEncoding : 7 < 8 ∧ encPattern oneCfg 0xA5#8 = encPattern oneCfg 0xA5#8 ∧
    0xD349A6#24 = (if oneCfg.invert then 0xD349A6#24 ^^^ 0xFFFFFF#24 else 0xD349A6#24) := by decide

theorem test_hyps_ChannelPatternIsBasePlusDataBits : (0x7F#8 : Byte) < 0x80#8 := by decide

/-- Both polarities. -/
theorem test_hyps_EncodeChannelReturnsTheTransmittedPattern : fresh.hostReady ∧ oneCfg.invert = false ∧
    Config.invert { oneCfg with invert := true } = true := by decide

/-- The two ends of the legal brightness register. -/
theorem test_hyps_BrightnessScalingFormula : (1#9).toNat ≤ 256 ∧ (256#9).toNat ≤ 256 := by decide

theorem test_hyps_BrightnessScalingIsMonotone : (0#8 : Byte) ≤ 255#8 ∧ (1#9 : BitVec 9) ≤ 256#9 ∧ (256#9).toNat ≤ 256 := by
  decide

theorem test_hyps_ChannelSentIsScaledThenCorrected : oneCfg.cieEnable = false ∧
    Config.cieEnable { oneCfg with cieEnable := true } = true := by decide

theorem test_hyps_PixelIsThreeChannelsInWireOrder : oneCfg.order = .grb ∧
    Config.order { oneCfg with order := .rgb } = .rgb := by decide

/-- The last byte of the last slot of the last pixel. -/
theorem test_hyps_RawLayoutAfterExpansion : Memory.wf State.reset.cfg State.reset.tx = true ∧ 2 < State.reset.cfg.n ∧
    (slots State.reset.cfg.order (State.reset.colorAt 2))[2]? = some 0#8 := by decide

theorem test_hyps_ExpansionWritesRawAndNothingElse : Memory.wf fresh.cfg fresh.tx = true ∧ 0 < fresh.cfg.n ∧
    rawLength fresh.cfg ≤ 9 := by decide

theorem test_hyps_ExpandingTwiceIsExpandingOnce :
    (Memory.wf fresh.cfg fresh.tx = true ∧ fresh.inFlight = false ∧
      exec .expandAll fresh = .next { fresh with tx := sentTx }) ∧
      (Memory.wf complete.cfg complete.tx = true ∧ fresh.cfg = complete.cfg ∧ fresh.colors = complete.colors ∧
        fresh.bp1 = complete.bp1 ∧ 8 < rawLength fresh.cfg) :=
  ⟨⟨rfl, rfl, rfl⟩, rfl, rfl, rfl, rfl, by decide⟩

/-- In range at the last pixel, and out of range at the next index. -/
theorem test_hyps_SetColorStoresOnePixelOrDoesNothing :
    (State.reset.hostReady ∧ (2#16).toNat < State.reset.cfg.n ∧ State.reset.colors.length = State.reset.cfg.n) ∧
      State.reset.cfg.n ≤ (3#16).toNat := by decide

theorem test_hyps_GetColorReturnsTheStoredColour :
    (State.reset.hostReady ∧ (2#16).toNat < State.reset.cfg.n) ∧ State.reset.cfg.n ≤ (3#16).toNat := by decide

theorem test_hyps_SetColorThenGetColorRoundTrips : fresh.hostReady ∧ fresh.colors.length = fresh.cfg.n ∧
    (0#16).toNat < fresh.cfg.n ∧ fresh.inFlight = false := by decide

theorem test_hyps_SetBrightnessStoresBrightnessPlusOne : fresh.hostReady ∧ midway.hostReady := by decide

theorem test_hyps_ExpandAllRewritesRaw :
    (complete.hostReady ∧ complete.inFlight = false ∧ Memory.wf complete.cfg complete.tx = true) ∧
      (midway.hostReady ∧ midway.inFlight = true) ∧
      (oneCfg.order = .grb ∧ oneCfg.invert = false ∧ oneCfg.cieEnable = false) := by decide

theorem test_hyps_WriteNbExpandsAndIssues :
    (complete.hostReady ∧ complete.inFlight = false ∧ Memory.wf complete.cfg complete.tx = true) ∧
      (lastBeat.hostReady ∧ lastBeat.inFlight = true) ∧ latchCount { oneCfg with serialClockHz := 159999 } = 0 := by
  decide

theorem test_hyps_WriteBExpandsIssuesAndHoldsTheHost :
    (fresh.hostReady ∧ fresh.inFlight = false ∧ Memory.wf fresh.cfg fresh.tx = true) ∧
      (lastBeat.hostReady ∧ lastBeat.inFlight = true) := by decide

theorem test_hyps_WriteBIsWriteNbThenWaitComplete : (fresh.hostReady ∧ fresh.inFlight = false) ∧
    (midway.hostReady ∧ midway.inFlight = true) := by decide

theorem test_hyps_WaitCompleteHoldsTheHostUnlessDone : (complete.hostReady ∧ complete.done = true) ∧
    (midway.hostReady ∧ midway.done = false) := by decide

theorem test_hyps_PollCompleteReadsDone : complete.hostReady ∧ midway.hostReady := by decide

theorem test_hyps_HostResumesExactlyWhenDone :
    State.hwait { complete with hwait := .waitDone } = .waitDone ∧ complete.fault = .none ∧ complete.done = true ∧
      complete.fsm = .idle := by decide

/-- The first byte and the last latch byte. -/
theorem test_hyps_DmaBeatMovesOneByte : issued.dmaIdx < txLength issued.cfg ∧
    State.dmaIdx { issued with dmaIdx := 9 } < txLength issued.cfg := by decide

/-- Each of the three kinds of step: one that writes neither, a WRITE, a completion. -/
theorem test_hyps_TransferStateMachineTransitions :
    (midway.Inv ∧ ∃ t, step midway = .next t) ∧
      (State.Inv { fresh with cmds := [.issue (encode .writeB)] } ∧
        ∃ t, step { fresh with cmds := [.issue (encode .writeB)] } = .next t) ∧
      (lastBeat.Inv ∧ ∃ t, step lastBeat = .next t) :=
  ⟨⟨midway_inv, _, test_dmaBeat.1⟩,
    ⟨inv_of_invCheck (sent := []) (by decide +kernel), { issued with hwait := .waitDone }, rfl⟩,
    ⟨lastBeat_inv, _, test_completionEvent⟩⟩

/-- `fresh` with a WRITE_NB to issue and then, during the transfer, a SET_BRIGHTNESS. -/
def toWrite : State :=
  { fresh with
    cmds := [.issue (encode .writeNb), .issue (encode (.setBrightness 0#8))]
    sched := [.hardware, .host] }

theorem toWrite_inv : toWrite.Inv := inv_of_invCheck (sent := []) (by decide +kernel)

/-- A whole transfer: the issue, one beat, a SET_BRIGHTNESS, nine beats, the completion. -/
theorem test_hyps_FrameLawUnderEveryInterleaving :
    toWrite.Inv ∧ IdleAndReady toWrite ∧
      toWrite.cmds = .issue (encode .writeNb) :: [.issue (encode (.setBrightness 0#8))] ∧
      (∀ j u, 0 < j → j < 13 → RunsTo j toWrite u → u.fsm = .inflight) ∧
      ∃ t, RunsTo 13 toWrite t ∧ t.fsm = .idle := by
  refine ⟨toWrite_inv, ⟨rfl, rfl, rfl⟩, rfl, fun j u h0 h1 hu => ?_, ?_⟩
  · have h : ∀ j ∈ List.range 12, reaches (j + 1) toWrite (fun t => decide (t.fsm = .inflight)) = true := by
      decide +kernel
    have := h (j - 1) (List.mem_range.2 (by omega))
    rw [Nat.sub_add_cancel h0] at this
    simpa using of_reaches this hu
  · have h : reaches 13 toWrite (fun t => decide (t.fsm = .idle)) = true := by decide +kernel
    obtain ⟨t, ht, hf⟩ := runsTo_of_reaches h
    exact ⟨t, ht, by simpa using hf⟩

/-- After the issue, one beat and the SET_BRIGHTNESS. -/
theorem test_hyps_WireHoldsAFramePrefixInFlight :
    toWrite.Inv ∧ IdleAndReady toWrite ∧
      toWrite.cmds = .issue (encode .writeNb) :: [.issue (encode (.setBrightness 0#8))] ∧
      (∀ j u, 0 < j → j < 3 → RunsTo j toWrite u → u.fsm = .inflight) ∧
      ∃ t, RunsTo 3 toWrite t ∧ t.fsm = .inflight := by
  refine ⟨toWrite_inv, ⟨rfl, rfl, rfl⟩, rfl, fun j u h0 h1 hu => ?_, ?_⟩
  · obtain rfl | rfl : j = 1 ∨ j = 2 := by omega
    · simpa using of_reaches (p := fun t => decide (t.fsm = .inflight)) (by decide +kernel) hu
    · simpa using of_reaches (p := fun t => decide (t.fsm = .inflight)) (by decide +kernel) hu
  · have h : reaches 3 toWrite (fun t => decide (t.fsm = .inflight)) = true := by decide +kernel
    obtain ⟨t, ht, hf⟩ := runsTo_of_reaches h
    exact ⟨t, ht, by simpa using hf⟩

theorem test_hyps_WriteBReturnsWithTheFrameOnTheWire :
    State.Inv { fresh with cmds := [.issue (encode .writeB)] } ∧
      IdleAndReady { fresh with cmds := [.issue (encode .writeB)] } ∧
      ∃ u, RunsTo 1 { fresh with cmds := [.issue (encode .writeB)] } u := by
  refine ⟨inv_of_invCheck (sent := []) (by decide +kernel), ⟨rfl, rfl, rfl⟩, ?_⟩
  obtain ⟨u, hu, -⟩ := runsTo_of_reaches (k := 1) (s := { fresh with cmds := [.issue (encode .writeB)] })
    (p := fun _ => true) (by decide +kernel)
  exact ⟨u, hu⟩

/-- A held host with beats to come, and with none; a WAIT_COMPLETE and a poll loop in a transfer, and after it. -/
theorem test_hyps_WaitsAndPollLoopsForATransferEnd :
    (State.Inv { midway with hwait := .waitDone } ∧ midway.fault = .none ∧ midway.fsm = .inflight) ∧
      (State.Inv { lastBeat with hwait := .waitDone } ∧ lastBeat.fault = .none ∧ lastBeat.fsm = .inflight) ∧
      (State.Inv { midway with cmds := [.issue (encode .waitComplete)] } ∧
        State.Inv { midway with cmds := [.pollUntilDone] } ∧ midway.hostReady) ∧
      (State.Inv { complete with cmds := [.issue (encode .waitComplete)] } ∧
        State.Inv { complete with cmds := [.pollUntilDone] } ∧ complete.hostReady ∧ complete.done = true) := by
  refine ⟨⟨?_, rfl, rfl⟩, ⟨?_, rfl, rfl⟩, ⟨?_, ?_, rfl, rfl⟩, ?_, ?_, ⟨rfl, rfl⟩, rfl⟩ <;>
    exact inv_of_invCheck (sent := []) (by decide +kernel)

theorem test_hyps_RunsWithoutPollLoopsAndRunsAfterAWriteEnd :
    HostAct.pollUntilDone ∉ toWrite.cmds ∧ (midway.Inv ∧ midway.fsm = .inflight) ∧
      (complete.Inv ∧ complete.done = true ∧ step complete = .refused .noCommand) :=
  ⟨by decide, ⟨midway_inv, rfl⟩, complete_inv, rfl, rfl⟩

theorem test_hyps_TheOneHangIsAWaitBeforeTheFirstWrite :
    State.Inv { fresh with hwait := .waitDone } ∧ step { fresh with hwait := .waitDone } = .fault .waitNeverEnds ∧
      fresh.fault = .none ∧ fresh.done = false ∧ fresh.fsm = .idle :=
  ⟨inv_of_invCheck (sent := []) (by decide +kernel), test_hang, rfl, rfl, rfl⟩

/-- Each of the four commands that can raise a fault. -/
theorem test_hyps_FaultsArePreciseWithTheTablesCauses :
    exec .writeNb midway = .next { midway with fault := .writeBusy } ∧
      exec .writeB midway = .next { midway with fault := .writeBusy } ∧
      exec .expandAll midway = .next { midway with fault := .expandBusy } ∧
      exec (.getColor 1) fresh = .next { fresh with fault := .readRange } := by and_intros <;> rfl

theorem test_hyps_AFaultStopsEveryAgentForEver : faulted.fault ≠ .none := by decide

theorem test_hyps_EveryCommandIsAvailableWhenReady : fresh.hostReady ∧ fresh.inFlight = false ∧
    (0#16).toNat < fresh.cfg.n := by decide

/-- Each reason to stop: a fault raised before, the endless wait, nothing to do, a reserved word in and out of a transfer. -/
theorem test_hyps_StepStopsOnlyForTheSpecsReasons :
    step faulted = .fault (.stopped .readRange) ∧ step { fresh with hwait := .waitDone } = .fault .waitNeverEnds ∧
      step fresh = .refused .noCommand ∧
      step { fresh with cmds := [.issue 0#64] } = .refused (.reservedWord (.reservedOpcode 0#8)) ∧
      step { midway with cmds := [.issue 0#64], sched := [.host] } = .refused (.reservedWord (.reservedOpcode 0#8)) := by
  and_intros <;> rfl

/-- No hardware step enabled; the schedule says the host; the schedule is used up. -/
theorem test_hyps_AStepRunsTheDecodedCommand :
    decode (encode .pollComplete) = .ok .pollComplete ∧
      (State.hostReady { fresh with cmds := [.issue (encode .pollComplete)] } ∧
        hardwareAgent { fresh with cmds := [.issue (encode .pollComplete)] } = none) ∧
      (State.hostReady { midway with cmds := [.issue (encode .pollComplete)], sched := [.host] } ∧
        hardwareAgent { midway with cmds := [.issue (encode .pollComplete)], sched := [.host] } = some .dma) ∧
      (State.hostReady { lastBeat with cmds := [.issue (encode .pollComplete)] } ∧
        hardwareAgent { lastBeat with cmds := [.issue (encode .pollComplete)] } = some .completion ∧
        lastBeat.sched = []) ∧
      (State.hostReady { complete with cmds := [.pollUntilDone] } ∧
        hardwareAgent { complete with cmds := [.pollUntilDone] } = none) ∧
      (State.hostReady { midway with cmds := [.pollUntilDone], sched := [.host] } ∧
        hardwareAgent { midway with cmds := [.pollUntilDone], sched := [.host] } = some .dma) := by decide +kernel

theorem test_hyps_AFetchedWordIsTheNextStep : midway.hostReady ∧ decode (tableWord 64 0x203) = .ok (.getColor 2) := by
  decide

/-- The host and the DMA, the host and the completion event, and one agent alone. -/
theorem test_hyps_AnyEnabledAgentMayGoNext :
    (agentEnabled .host { midway with cmds := [.issue 0x9#64], sched := [.hardware] } = true ∧
      agentEnabled .dma { midway with cmds := [.issue 0x9#64], sched := [.hardware] } = true) ∧
      (agentEnabled .host { lastBeat with cmds := [.issue 0x9#64], sched := [.host] } = true ∧
        agentEnabled .completion { lastBeat with cmds := [.issue 0x9#64], sched := [.host] } = true) ∧
      (agentEnabled .dma midway = true ∧ ∀ b, agentEnabled b midway = true → b = .dma) := by
  refine ⟨by decide +kernel, by decide +kernel, by decide +kernel, fun b hb => ?_⟩
  cases b
  · revert hb; decide +kernel
  · rfl
  · revert hb; decide +kernel

theorem test_hyps_PollAfterWriteNbMaySeeEitherValue :
    State.Inv { fresh with cmds := [.issue (encode .writeNb), .issue (encode .pollComplete)] } ∧
      IdleAndReady { fresh with cmds := [.issue (encode .writeNb), .issue (encode .pollComplete)] } :=
  ⟨inv_of_invCheck (sent := []) (by decide +kernel), rfl, rfl, rfl⟩

/-- A resume, a command, a beat and a completion. -/
theorem test_hyps_EveryStepKeepsTheInvariant :
    (State.Inv { complete with hwait := .waitDone } ∧ step { complete with hwait := .waitDone } = .next complete) ∧
      (toWrite.Inv ∧ ∃ t, step toWrite = .next t) ∧ (midway.Inv ∧ ∃ t, step midway = .next t) ∧
      (lastBeat.Inv ∧ step lastBeat = .next complete) := by
  refine ⟨⟨inv_of_invCheck (sent := []) (by decide +kernel), test_hostResume⟩, ⟨toWrite_inv, ?_⟩,
    ⟨midway_inv, _, test_dmaBeat.1⟩, lastBeat_inv, test_completionEvent⟩
  obtain ⟨t, ht, -⟩ := runsTo_of_reaches (k := 1) (s := toWrite) (p := fun _ => true) (by decide +kernel)
  obtain ⟨u, hu, -⟩ := runsTo_succ.1 ht
  exact ⟨u, hu⟩

theorem test_hyps_ConstructionGivesTheResetTable : Config.wf { oneCfg with n := 0 } = false ∧
    (oneCfg.wf = true ∧ [(⟨1, 2, 3⟩ : Color)].length = oneCfg.n ∧ (List.replicate 9 0x55#8).length = 9 * oneCfg.n) := by
  decide +kernel

theorem test_hyps_ResetIsAConstructedState :
    ∃ s, construct oneCfg ⟨[⟨1, 2, 3⟩], 7#8, List.replicate 9 0x55#8, 0#24⟩ = .next s := ⟨_, rfl⟩

theorem test_hyps_ParametersNeverChange : ∃ t, step midway = .next t := ⟨_, test_dmaBeat.1⟩

/-- A beat, and a step that is none. -/
theorem test_hyps_WireGrowsOnlyByABeat : (∃ t, step midway = .next t) ∧ ∃ t, step lastBeat = .next t :=
  ⟨⟨_, test_dmaBeat.1⟩, ⟨_, test_completionEvent⟩⟩

/-- Steps that write the colours, the brightness and the transmit buffer. -/
theorem test_hyps_OnlyTheirCommandsWriteFrameBufferState :
    step { fresh with cmds := [.issue (encode (.setColor 0 1 2 3))] } = .next { fresh with colors := [⟨1, 2, 3⟩] } ∧
      step { fresh with cmds := [.issue (encode (.setBrightness 9))] } = .next { fresh with bp1 := 10#9 } ∧
      step { fresh with cmds := [.issue (encode .expandAll)] } = .next { fresh with tx := sentTx } := by and_intros <;> rfl

/-- A command that runs, and one that faults. -/
theorem test_hyps_NoCommandTouchesATransferInFlight : midway.inFlight = true ∧
    exec (.setColor 0 0 0 0) midway = .next { midway with colors := [⟨0, 0, 0⟩] } ∧
    exec .writeNb midway = .next { midway with fault := .writeBusy } := by and_intros <;> rfl

theorem test_hyps_CommandsLeaveTheFlagsAlone :
    exec .waitComplete midway = .next { midway with hwait := .waitDone } ∧
      exec .pollComplete complete = .next { complete with result := 1#24 } := by and_intros <;> rfl

theorem test_hyps_OldRawNeverReachesTheWire :
    fresh.Inv ∧ fresh.hostReady ∧ fresh.fsm = .idle ∧ Memory.wf fresh.cfg [(4, 0x77#8)] = true ∧
      (∀ k, rawLength fresh.cfg ≤ k → Memory.read fresh.cfg [(4, 0x77#8)] k = fresh.txByte k) ∧
      exec .writeNb fresh = .next issued := by
  refine ⟨fresh_inv, ⟨rfl, rfl⟩, rfl, by decide, fun k hk => ?_, test_writeNb.1⟩
  have h4 : (4 : Nat) ≠ k := by have : rawLength fresh.cfg = 9 := rfl; omega
  simp [State.txByte, Memory.read, Memory.lookup, h4, fresh, State.reset]

theorem test_hyps_SettingEverythingDeterminesTheFrame :
    fresh.cfg = complete.cfg ∧ fresh.colors.length = fresh.cfg.n ∧ complete.colors.length = complete.cfg.n ∧
      (∀ k, k < fresh.cfg.n → ∃ x r g b,
        Instr.setColor x r g b ∈ [Instr.setBrightness 9, .setColor 0 1 2 3] ∧ x.toNat = k) ∧
      runCommands [.setBrightness 9, .setColor 0 1 2 3] fresh =
        .next { fresh with bp1 := 10#9, colors := [⟨1, 2, 3⟩] } ∧
      runCommands [.setBrightness 9, .setColor 0 1 2 3] complete =
        .next { complete with bp1 := 10#9, colors := [⟨1, 2, 3⟩] } := by
  refine ⟨rfl, rfl, rfl, fun k hk => ⟨0, 1, 2, 3, by simp, ?_⟩, rfl, rfl⟩
  have : fresh.cfg.n = 1 := rfl
  have : BitVec.toNat (0 : PixelIdx) = 0 := rfl
  omega

theorem test_hyps_InstancesAreIndependent :
    [fresh, lastBeat, midway][1]? = some lastBeat ∧ step lastBeat = .next complete ∧
      stepInstance 1 [fresh, lastBeat, midway] = .next [fresh, complete, midway] := by and_intros <;> rfl

end Sys2Proof.Tests
end

