-- ==== Sys2Proof/Proofs/Scope.lean ====
section
/-! PROOFS. The latch count and the latch region of a frame (42_transfer_engine.md R540), and construction
(70_reset_and_hazards.md R700). -/

namespace Sys2Proof.Machine

variable {c : Config} {a : InitArgs} {k : Nat}

/-! ### The latch -/

/-- R540's own formula, LATCH_US microseconds of the serial clock in bytes of 8 bits, is the division of
00_scope.md R12: both sides of the fraction are cancelled by 50. -/
theorem latchCount_eq_formula (c : Config) :
    latchCount c = c.serialClockHz * Config.latchUs / (8 * 1000000) :=
  (Nat.mul_div_mul_right c.serialClockHz 160000 (show 0 < 50 by decide)).symm

theorem latchCount_mul_le (c : Config) : latchCount c * 160000 ≤ c.serialClockHz :=
  Nat.div_mul_le_self ..

theorem latchCount_mul_eq_iff (c : Config) : latchCount c * 160000 = c.serialClockHz ↔ 160000 ∣ c.serialClockHz :=
  (Nat.dvd_iff_div_mul_eq ..).symm

/-- The latch's 8L serial periods, scaled from seconds to microseconds, are LATCH_US of the clock rounded down to a
multiple of 160000 Hz: what the bound of R540 then compares is `L * 160000` and the clock. -/
theorem latchCount_periods (c : Config) : 8 * latchCount c * 1000000 = Config.latchUs * (latchCount c * 160000) := by
  rw [Config.latchUs]
  omega

theorem drop_frame_rawLength (s : State) :
    (frame s).drop (rawLength s.cfg) = List.replicate (latchCount s.cfg) (latchByte s.cfg) := by
  rw [frame, ← length_frameData, List.drop_left]

/-- Settles O40: in bytes' worth of the clock, `L * 160000`, the bound is the floor division's and equality is
divisibility; the frame's end is the latch region appended to the data. -/
theorem latchIsAtMostFiftyMicroseconds : Obligations.LatchIsAtMostFiftyMicroseconds := by
  refine ⟨latchCount_eq_formula, fun c => ?bound, fun c => ?equality,
    fun s => ⟨length_frame s, drop_frame_rawLength s⟩⟩
  case bound =>
    rw [latchCount_periods]
    exact Nat.mul_le_mul_left _ (latchCount_mul_le c)
  case equality =>
    rw [latchCount_periods, Nat.mul_right_inj (show Config.latchUs ≠ 0 by decide), latchCount_mul_eq_iff]

/-! ### Construction -/

theorem fit_iff : a.fit c = true ↔ a.colors.length = c.n ∧ a.raw.length = rawLength c := by
  simp [InitArgs.fit]

theorem construct_of_not_wf (h : c.wf = false) : construct c a = .refused .illFormedConfig := by
  simp [construct, h]

theorem construct_of_wf (h : c.wf = true) (hf : a.fit c = true) : construct c a = .next (constructed c a) := by
  simp [construct, h, hf]

/-- No brightness wraps in the nine bits of `bp1` (10_state.md R103). -/
theorem toNat_brightnessPlusOne (v : Byte) : (brightnessPlusOne v).toNat = v.toNat + 1 := by
  have := v.isLt
  simp only [brightnessPlusOne, BitVec.toNat_add, BitVec.toNat_setWidth, BitVec.toNat_ofNat]
  omega

theorem txByte_constructed_raw (hr : a.raw.length = rawLength c) (hk : k < rawLength c) :
    (constructed c a).txByte k = a.raw[k]? := by
  have hin : 0 + a.raw.length ≤ txLength c := by rw [hr, Nat.zero_add]; exact rawLength_le_txLength c
  have := Memory.read_writeRun_inside (Memory.wf_nil c) (hr ▸ hk) hin
  rwa [Nat.zero_add] at this

theorem txByte_constructed_latch (hr : a.raw.length = rawLength c) (hk : rawLength c ≤ k) (hT : k < txLength c) :
    (constructed c a).txByte k = some (latchByte c) := by
  calc (constructed c a).txByte k
      = Memory.read c [] k := Memory.read_writeRun_outside (.inr (by omega))
    _ = Memory.unlisted c k := Memory.read_nil c k
    _ = some (latchByte c) := Memory.unlisted_latch hk hT

theorem constructed_inv (h : c.wf = true) (hc : a.colors.length = c.n) (hr : a.raw.length = rawLength c) :
    (constructed c a).Inv where
  cfgWf := h
  colorsLength := hc
  bp1Pos := (toNat_brightnessPlusOne a.brightness).symm ▸ Nat.le_add_left ..
  bp1Le := (toNat_brightnessPlusOne a.brightness).symm ▸ a.brightness.isLt
  txWf := Memory.wf_writeRun (Memory.wf_nil c)
  latchKept _ := txByte_constructed_latch hr
  notPending := nofun
  inFlightIff := ⟨nofun, nofun⟩
  dmaIdxLe := Nat.zero_le _
  doneClear := nofun
  doneAll := nofun
  idleFresh _ _ := ⟨rfl, rfl⟩
  wireTail := nofun

/-- Settles O51: the state is `constructed c a`; its plain fields are the table's by definition, its transmit buffer is
INIT_RAW written over the empty buffer, which reads LATCH_BYTE past it. -/
theorem constructionGivesTheResetTable : Obligations.ConstructionGivesTheResetTable := by
  refine ⟨fun c a => construct_of_not_wf, fun c a h hc hr => ⟨constructed c a, ?_⟩⟩
  exact ⟨construct_of_wf h (fit_iff.2 ⟨hc, hr⟩), constructed_inv h hc hr, rfl, rfl, toNat_brightnessPlusOne _,
    fun _ => txByte_constructed_raw hr, fun _ => txByte_constructed_latch hr,
    rfl, rfl, rfl, rfl, rfl, rfl, rfl, rfl⟩

end Sys2Proof.Machine
end

/-! PROOFS. What the commands write and what every step keeps (10_state.md): the parameters, `wire`, the frame buffer's
fields, the transfer in flight, and the invariant. -/

namespace Sys2Proof.Machine

variable {s t : State} {i : Instr}

/-! ### What the commands write -/

/-- The state a command leaves, sorted by the fields it writes: only the host's own, `result`, `colors`, `bp1`, `tx`, or
the transfer. -/
inductive CommandWrites (s : State) : Instr → State → Prop where
  | hostOnly (i : Instr) (f : FaultCode) (w : HostWait) : CommandWrites s i { s with fault := f, hwait := w }
  | result (i : Instr) (r : Pattern) (hi : (∃ v, i = .encodeChannel v) ∨ (∃ x, i = .getColor x) ∨ i = .pollComplete) :
    CommandWrites s i { s with result := r }
  | color (x : PixelIdx) (r g b : Byte) :
    CommandWrites s (.setColor x r g b) { s with colors := s.colors.set x.toNat ⟨r, g, b⟩ }
  | brightness (v : Byte) : CommandWrites s (.setBrightness v) { s with bp1 := brightnessPlusOne v }
  | expansion (hb : s.inFlight = false) : CommandWrites s .expandAll (expand s)
  | transfer (i : Instr) (w : HostWait) (hi : i = .writeNb ∨ i = .writeB) (hb : s.inFlight = false) :
    CommandWrites s i { issueTransfer s with hwait := w }

theorem commandWrites_of_exec (h : exec i s = .next t) : CommandWrites s i t := by
  obtain ⟨-, hc⟩ := exec_next h
  cases i with
  | encodeChannel v => cases hc; exact .result _ _ (.inl ⟨v, rfl⟩)
  | setColor x r g b =>
    obtain ⟨-, rfl⟩ | ⟨-, rfl⟩ := hc
    · exact .color x r g b
    · exact .hostOnly _ t.fault t.hwait
  | getColor x =>
    obtain ⟨-, rfl⟩ | ⟨-, rfl⟩ := hc
    · exact .result _ _ (.inr (.inl ⟨x, rfl⟩))
    · exact .hostOnly _ _ s.hwait
  | setBrightness v => cases hc; exact .brightness v
  | expandAll =>
    obtain ⟨-, rfl⟩ | ⟨hb, rfl⟩ := hc
    · exact .hostOnly _ _ s.hwait
    · exact .expansion hb
  | writeNb =>
    obtain ⟨-, rfl⟩ | ⟨hb, rfl⟩ := hc
    · exact .hostOnly _ _ s.hwait
    · exact .transfer _ s.hwait (.inl rfl) hb
  | writeB =>
    obtain ⟨-, rfl⟩ | ⟨hb, rfl⟩ := hc
    · exact .hostOnly _ _ s.hwait
    · exact .transfer _ .waitDone (.inr rfl) hb
  | waitComplete =>
    obtain ⟨-, rfl⟩ | ⟨-, rfl⟩ := hc
    · exact .hostOnly _ t.fault t.hwait
    · exact .hostOnly _ s.fault _
  | pollComplete => cases hc; exact .result _ _ (.inr (.inr rfl))

theorem exec_cfg (h : exec i s = .next t) : t.cfg = s.cfg := by
  cases commandWrites_of_exec h <;> rfl

/-- No command sends: only a beat does (10_state.md R112). -/
theorem exec_wire (h : exec i s = .next t) : t.wire = s.wire := by
  cases commandWrites_of_exec h <;> rfl

theorem setColor_of_exec_colors_ne (h : exec i s = .next t) (hne : t.colors ≠ s.colors) :
    ∃ x r g b, i = .setColor x r g b := by
  cases commandWrites_of_exec h with
  | color x r g b => exact ⟨x, r, g, b, rfl⟩
  | _ => exact absurd rfl hne

theorem setBrightness_of_exec_bp1_ne (h : exec i s = .next t) (hne : t.bp1 ≠ s.bp1) : ∃ v, i = .setBrightness v := by
  cases commandWrites_of_exec h with
  | brightness v => exact ⟨v, rfl⟩
  | _ => exact absurd rfl hne

theorem expands_of_exec_tx_ne (h : exec i s = .next t) (hne : t.tx ≠ s.tx) :
    s.inFlight = false ∧ (i = .expandAll ∨ i = .writeNb ∨ i = .writeB) := by
  cases commandWrites_of_exec h with
  | expansion hb => exact ⟨hb, .inl rfl⟩
  | transfer _ w hi hb => exact ⟨hb, .inr hi⟩
  | _ => exact absurd rfl hne

theorem returnsValue_of_exec_result_ne (h : exec i s = .next t) (hne : t.result ≠ s.result) :
    (∃ v, i = .encodeChannel v) ∨ (∃ x, i = .getColor x) ∨ i = .pollComplete := by
  cases commandWrites_of_exec h with
  | result _ r hi => exact hi
  | _ => exact absurd rfl hne

theorem exec_status_of_not_write (h : exec i s = .next t) (hn : i ≠ .writeNb) (hb : i ≠ .writeB) :
    t.done = s.done ∧ t.inFlight = s.inFlight ∧ t.fsm = s.fsm ∧ t.dmaIdx = s.dmaIdx := by
  cases commandWrites_of_exec h with
  | transfer _ w hi => exact absurd hi (not_or.2 ⟨hn, hb⟩)
  | _ => exact ⟨rfl, rfl, rfl, rfl⟩

/-- Settles O57: the transfer's fields are written by the case of a WRITE alone, `result` by that of the value-returning
commands. -/
theorem commandsLeaveTheFlagsAlone : Obligations.CommandsLeaveTheFlagsAlone :=
  ⟨fun _ _ _ => exec_status_of_not_write, fun _ _ _ => returnsValue_of_exec_result_ne⟩

/-- Settles O56: what expands or issues does so with nothing in flight; the other commands write none of these fields. -/
theorem noCommandTouchesATransferInFlight : Obligations.NoCommandTouchesATransferInFlight := by
  intro i s t hfl h
  cases commandWrites_of_exec h with
  | expansion hb => rw [hfl] at hb; cases hb
  | transfer _ w hi hb => rw [hfl] at hb; cases hb
  | _ => exact ⟨rfl, rfl, rfl, rfl, hfl, rfl, rfl⟩

/-! ### What a step leaves -/

/-- Settles O53: a command leaves the parameters, and no other step writes them. -/
theorem parametersNeverChange : Obligations.ParametersNeverChange := by
  intro s t h
  obtain ⟨-, sc, tu, ld, ⟨-, -, rfl⟩ | ⟨-, w, rest, i, -, -, he⟩ | ⟨-, rest, -, rfl⟩ | ⟨-, -, b, -, rfl⟩ |
    ⟨-, -, rfl⟩⟩ := step_cases h
  case inr.inl => exact (exec_cfg he :)
  all_goals rfl

/-- Settles O54: among the cases of a step only the beat writes `wire`. -/
theorem wireGrowsOnlyByABeat : Obligations.WireGrowsOnlyByABeat := by
  refine ⟨rfl, fun s t h => ?_⟩
  obtain ⟨-, sc, tu, ld, ⟨-, -, rfl⟩ | ⟨-, w, rest, i, -, -, he⟩ | ⟨-, rest, -, rfl⟩ | ⟨hf, hlt, b, hb, rfl⟩ |
    ⟨-, -, rfl⟩⟩ := step_cases h
  case inr.inl => exact .inl (exec_wire he :)
  case inr.inr.inr.inl => exact .inr ⟨hf, hlt, rfl, b, hb, rfl⟩
  all_goals exact .inl rfl

/-- A step runs the host's next command, or leaves the frame buffer: colours, brightness and transmit buffer. -/
theorem step_runs_command_or_leaves_frameBuffer (h : step s = .next t) :
    (∃ w rest i sc tu ld, s.cmds = .issue w :: rest ∧ decode w = .ok i ∧
      exec i { s with cmds := rest, sched := sc, turns := tu, lead := ld } = .next t) ∨
    (t.colors = s.colors ∧ t.bp1 = s.bp1 ∧ t.tx = s.tx) := by
  obtain ⟨-, sc, tu, ld, ⟨-, -, rfl⟩ | ⟨-, w, rest, i, hc, hd, he⟩ | ⟨-, rest, -, rfl⟩ | ⟨-, -, b, -, rfl⟩ |
    ⟨-, -, rfl⟩⟩ := step_cases h
  case inr.inl => exact .inl ⟨w, rest, i, sc, tu, ld, hc, hd, he⟩
  all_goals exact .inr ⟨rfl, rfl, rfl⟩

/-- Settles O55: the step that changes one of the three runs a command, and the command is one that writes it. -/
theorem onlyTheirCommandsWriteFrameBufferState : Obligations.OnlyTheirCommandsWriteFrameBufferState := by
  intro s t h
  obtain ⟨w, rest, i, sc, tu, ld, hc, hd, he⟩ | ⟨hcol, hbp, htx⟩ := step_runs_command_or_leaves_frameBuffer h
  · refine ⟨fun hne => ?colors, fun hne => ?bp1, fun hne => ?tx⟩
    case colors =>
      obtain ⟨x, r, g, b, rfl⟩ := setColor_of_exec_colors_ne he hne
      exact ⟨w, rest, x, r, g, b, hc, hd⟩
    case bp1 =>
      obtain ⟨v, rfl⟩ := setBrightness_of_exec_bp1_ne he hne
      exact ⟨w, rest, v, hc, hd⟩
    case tx =>
      obtain ⟨hb, hi⟩ := expands_of_exec_tx_ne he hne
      exact ⟨hb, w, rest, hc, by rcases hi with rfl | rfl | rfl <;> simp [hd]⟩
  · exact ⟨fun hne => absurd hcol hne, fun hne => absurd hbp hne, fun hne => absurd htx hne⟩

/-! ### What `raw` was before a WRITE -/

theorem exec_writeNb_of_ready (hr : s.hostReady) (hb : s.inFlight = false) :
    exec .writeNb s = .next (issueTransfer s) := by
  have hw : exec .writeNb s = writeCore s fun t => t := whenReady_of_ready hr _
  simp [hw, writeCore, hb]

/-- The expansion depends on the old transmit buffer by its latch region alone: every byte of `raw` is written over, and
the canonical form makes equal contents equal buffers. -/
theorem expand_eq_of_latch_eq {m : Memory} (hs : Memory.wf s.cfg s.tx = true) (hm : Memory.wf s.cfg m = true)
    (hr : ∀ k, rawLength s.cfg ≤ k → Memory.read s.cfg m k = s.txByte k) : expand { s with tx := m } = expand s := by
  have hread : ∀ k, (expand { s with tx := m }).txByte k = (expand s).txByte k := by
    intro k
    rcases Nat.lt_or_ge k (rawLength s.cfg) with hk | hk
    · calc (expand { s with tx := m }).txByte k
          = (frameData s)[k]? := txByte_expand_raw (s := { s with tx := m }) hm hk
        _ = (expand s).txByte k := (txByte_expand_raw hs hk).symm
    · calc (expand { s with tx := m }).txByte k
          = Memory.read s.cfg m k := txByte_expand_rest (s := { s with tx := m }) hk
        _ = s.txByte k := hr k hk
        _ = (expand s).txByte k := (txByte_expand_rest hk).symm
  have htx : (expand { s with tx := m }).tx = (expand s).tx :=
    Memory.ext_of_read (Memory.wf_writeRun hm) (Memory.wf_writeRun hs) hread
  calc expand { s with tx := m }
      = { s with tx := (expand { s with tx := m }).tx } := rfl
    _ = expand s := by rw [htx]; rfl

/-- Settles O58: with nothing in flight WRITE_NB issues the expansion, and the two expansions are the same state. -/
theorem oldRawNeverReachesTheWire : Obligations.OldRawNeverReachesTheWire := by
  intro s t m hinv hr hidle hm hlatch h
  have hb : s.inFlight = false := by
    rw [Bool.eq_false_iff, Ne, hinv.inFlightIff, hidle]
    nofun
  have hissue : issueTransfer { s with tx := m } = issueTransfer s :=
    congrArg markIssued (expand_eq_of_latch_eq (s := markPending s) hinv.txWf hm hlatch)
  rw [exec_writeNb_of_ready hr hb] at h
  rw [exec_writeNb_of_ready (s := { s with tx := m }) hr hb, hissue, h]

/-! ### The invariant -/

/-- The invariant says nothing of the host's own fields and of the schedule. -/
theorem State.Inv.hostOnly (h : s.Inv) (f : FaultCode) (w : HostWait) (r : Pattern) (cs : List HostAct)
    (sc : List Turn) (tu ld : Nat) :
    State.Inv { s with fault := f, hwait := w, result := r, cmds := cs, sched := sc, turns := tu, lead := ld } :=
  { h with }

theorem State.Inv.setColor (h : s.Inv) (k : Nat) (col : Color) : State.Inv { s with colors := s.colors.set k col } :=
  { h with colorsLength := List.length_set.trans h.colorsLength }

theorem State.Inv.setBrightness (h : s.Inv) (v : Byte) : State.Inv { s with bp1 := brightnessPlusOne v } :=
  { h with
    bp1Pos := (toNat_brightnessPlusOne v).symm ▸ Nat.le_add_left ..
    bp1Le := (toNat_brightnessPlusOne v).symm ▸ v.isLt }

theorem State.Inv.expand (h : s.Inv) (hb : s.inFlight = false) : (expand s).Inv :=
  { h with
    txWf := Memory.wf_writeRun h.txWf
    latchKept := fun k hk hT => (txByte_expand_rest (s := s) hk).trans (h.latchKept k hk hT)
    wireTail := fun hf => absurd (h.inFlightIff.2 hf) (Bool.eq_false_iff.1 hb) }

theorem State.Inv.issueTransfer (h : s.Inv) : (issueTransfer s).Inv :=
  { h with
    txWf := Memory.wf_writeRun h.txWf
    latchKept := fun k hk hT => (txByte_expand_rest (s := markPending s) hk).trans (h.latchKept k hk hT)
    notPending := nofun
    inFlightIff := ⟨fun _ => rfl, fun _ => rfl⟩
    dmaIdxLe := Nat.zero_le _
    doneClear := fun _ => rfl
    doneAll := nofun
    idleFresh := nofun
    wireTail := fun _ => ⟨s.wire, (List.append_nil _).symm⟩ }

/-- A beat puts byte `dma_idx` behind the bytes already moved (20_memory.md R211 items a, b). -/
theorem State.Inv.beat (h : s.Inv) (hf : s.fsm = .inflight) (hlt : s.dmaIdx < txLength s.cfg) {b : Byte}
    (hb : s.txByte s.dmaIdx = some b) : State.Inv { s with wire := s.wire ++ [b], dmaIdx := s.dmaIdx + 1 } :=
  { h with
    dmaIdxLe := hlt
    doneAll := fun hd => absurd hd (Bool.eq_false_iff.1 (h.doneClear hf))
    idleFresh := fun hidle => absurd (hf.symm.trans hidle) nofun
    wireTail := fun _ => by
      obtain ⟨sent, hw⟩ := h.wireTail hf
      have hw' : s.wire ++ [b] = sent ++ (List.range (s.dmaIdx + 1)).map fun k => (s.txByte k).getD 0#8 := by
        rw [hw]
        simp [List.range_succ, hb]
      exact ⟨sent, hw'⟩ }

theorem State.Inv.complete (h : s.Inv) (hT : s.dmaIdx = txLength s.cfg) :
    State.Inv { s with done := true, inFlight := false, fsm := .idle } :=
  { h with
    notPending := nofun
    inFlightIff := ⟨nofun, nofun⟩
    doneClear := nofun
    doneAll := fun _ => hT
    idleFresh := nofun
    wireTail := nofun }

theorem exec_keeps_inv (h : exec i s = .next t) (hs : s.Inv) : t.Inv := by
  cases commandWrites_of_exec h with
  | hostOnly => exact hs.hostOnly ..
  | result => exact hs.hostOnly ..
  | color => exact hs.setColor ..
  | brightness => exact hs.setBrightness ..
  | expansion hb => exact hs.expand hb
  | transfer => exact hs.issueTransfer.hostOnly ..

/-- Settles O49: each case of a step, with the schedule's fields moved on, keeps the invariant by that case's lemma. -/
theorem everyStepKeepsTheInvariant : Obligations.EveryStepKeepsTheInvariant := by
  intro s t hs h
  obtain ⟨-, sc, tu, ld, hresume | hcommand | hpoll | hbeat | hcomplete⟩ := step_cases h
  · obtain ⟨-, -, rfl⟩ := hresume
    exact hs.hostOnly ..
  · obtain ⟨-, w, rest, i, -, -, he⟩ := hcommand
    exact exec_keeps_inv he (hs.hostOnly ..)
  · obtain ⟨-, rest, -, rfl⟩ := hpoll
    exact hs.hostOnly ..
  · obtain ⟨hf, hlt, b, hb, rfl⟩ := hbeat
    exact (hs.beat hf hlt hb).hostOnly ..
  · obtain ⟨-, hT, rfl⟩ := hcomplete
    exact (hs.complete hT).hostOnly ..

end Sys2Proof.Machine

/-! PROOFS. Where the channels stand in the transmit buffer (20_memory.md R202). -/

namespace Sys2Proof.Machine

/-- Byte `3 * k + j` of a pixel is byte `j` of the channel in slot `k`. -/
theorem getElem?_pixelBytes (c : Config) (bp1 : BitVec 9) (col : Color) (k : Nat) {j : Nat} (hj : j < 3) :
    (pixelBytes c bp1 col)[3 * k + j]? =
      (slots c.order col)[k]?.bind fun v => (bytes3 c (chanOut c bp1 v))[j]? :=
  getElem?_flatMap_of_length (fun v => length_bytes3 c (chanOut c bp1 v)) _ k j hj

/-- Byte `m` of pixel `i` stands at `9 * i + m`, inside `raw`. -/
theorem txByte_expand_pixel {s : State} (h : Memory.wf s.cfg s.tx = true) {i m : Nat} (hi : i < s.cfg.n) (hm : m < 9) :
    (expand s).txByte (9 * i + m) = (pixelBytes s.cfg s.bp1 (s.colorAt i))[m]? := by
  have hraw : 9 * i + m < rawLength s.cfg := by
    rw [rawLength]
    omega
  rw [txByte_expand_raw h hraw, getElem?_frameData s hi hm]

/-- Settles O17: pieces of nine bytes within `raw`, then pieces of three within the pixel. -/
theorem rawLayoutAfterExpansion : Obligations.RawLayoutAfterExpansion := by
  refine ⟨fun s i k j v hwf hi hk hj hv => ?layout, fun col => ⟨rfl, rfl⟩⟩
  case layout =>
    calc (expand s).txByte (9 * i + 3 * k + j)
        = (expand s).txByte (9 * i + (3 * k + j)) := by rw [Nat.add_assoc]
      _ = (pixelBytes s.cfg s.bp1 (s.colorAt i))[3 * k + j]? := txByte_expand_pixel hwf hi (by omega)
      _ = (bytes3 s.cfg (chanOut s.cfg s.bp1 v))[j]? := by
        rw [getElem?_pixelBytes _ _ _ k hj, hv, Option.bind_some]

end Sys2Proof.Machine

/-! PROOFS. The command words (30_encoding.md R311 to R318): a word as the number of its fields, decode and encode as
inverses, the rows of the opcode table, and the words the decoder refuses. -/

namespace Sys2Proof

open Claims

variable {w : CmdWord} {lo : Nat} {i : Instr}

/-! ### Fields and formats as numbers (R311) -/

theorem valField_toNat (w : CmdWord) : (valField w).toNat = w.toNat / 2 ^ 8 % 2 ^ 8 := by
  rw [valField, BitVec.extractLsb'_toNat, Nat.shiftRight_eq_div_pow]

theorem idxField_toNat (w : CmdWord) : (idxField w).toNat = w.toNat / 2 ^ 8 % 2 ^ 16 := by
  rw [idxField, BitVec.extractLsb'_toNat, Nat.shiftRight_eq_div_pow]

theorem redField_toNat (w : CmdWord) : (redField w).toNat = w.toNat / 2 ^ 24 % 2 ^ 8 := by
  rw [redField, BitVec.extractLsb'_toNat, Nat.shiftRight_eq_div_pow]

theorem greenField_toNat (w : CmdWord) : (greenField w).toNat = w.toNat / 2 ^ 32 % 2 ^ 8 := by
  rw [greenField, BitVec.extractLsb'_toNat, Nat.shiftRight_eq_div_pow]

theorem blueField_toNat (w : CmdWord) : (blueField w).toNat = w.toNat / 2 ^ 40 % 2 ^ 8 := by
  rw [blueField, BitVec.extractLsb'_toNat, Nat.shiftRight_eq_div_pow]

theorem formatFN_toNat (op : Byte) : (formatFN op).toNat = op.toNat := by
  rw [formatFN, toNat_append_eq, BitVec.toNat_ofNat]
  omega

theorem formatFV_toNat (op val : Byte) : (formatFV op val).toNat = op.toNat + 2 ^ 8 * val.toNat := by
  rw [formatFV, toNat_append_eq, toNat_append_eq, BitVec.toNat_ofNat]
  omega

theorem formatFI_toNat (op : Byte) (idx : PixelIdx) : (formatFI op idx).toNat = op.toNat + 2 ^ 8 * idx.toNat := by
  rw [formatFI, toNat_append_eq, toNat_append_eq, BitVec.toNat_ofNat]
  omega

theorem formatFC_toNat (op : Byte) (idx : PixelIdx) (red green blue : Byte) :
    (formatFC op idx red green blue).toNat =
      op.toNat + 2 ^ 8 * idx.toNat + 2 ^ 24 * red.toNat + 2 ^ 32 * green.toNat + 2 ^ 40 * blue.toNat := by
  simp only [formatFC, toNat_append_eq, BitVec.toNat_ofNat]
  omega

/-- The encoder's concatenations are the sums of R311: an opcode is less than 2^8, and each operand its field. -/
theorem encode_toNat (i : Instr) : (encode i).toNat = placeValue i := by
  cases i with
  | encodeChannel v => exact formatFV_toNat 0x01#8 v
  | setColor x r g b => exact formatFC_toNat 0x02#8 x r g b
  | getColor x => exact formatFI_toNat 0x03#8 x
  | setBrightness v => exact formatFV_toNat 0x04#8 v
  | expandAll => exact formatFN_toNat 0x05#8
  | writeNb => exact formatFN_toNat 0x06#8
  | writeB => exact formatFN_toNat 0x07#8
  | waitComplete => exact formatFN_toNat 0x08#8
  | pollComplete => exact formatFN_toNat 0x09#8

theorem placeValue_lt (i : Instr) : placeValue i < 2 ^ 64 := encode_toNat i ▸ (encode i).isLt

theorem encode_eq_ofNat_placeValue (i : Instr) : encode i = BitVec.ofNat 64 (placeValue i) := by
  rw [← encode_toNat, BitVec.ofNat_toNat, BitVec.setWidth_eq]

/-! ### The fields of a format's word -/

section fields

variable (op val red green blue : Byte) (idx : PixelIdx)

@[simp] theorem opField_formatFN : opField (formatFN op) = op := BitVec.extractLsb'_append_eq_right

@[simp] theorem opField_formatFV : opField (formatFV op val) = op := BitVec.extractLsb'_append_eq_right

@[simp] theorem opField_formatFI : opField (formatFI op idx) = op := BitVec.extractLsb'_append_eq_right

@[simp] theorem opField_formatFC : opField (formatFC op idx red green blue) = op := BitVec.extractLsb'_append_eq_right

@[simp] theorem valField_formatFV : valField (formatFV op val) = val := by
  apply BitVec.eq_of_toNat_eq
  rw [valField_toNat, formatFV_toNat]
  omega

@[simp] theorem idxField_formatFI : idxField (formatFI op idx) = idx := by
  apply BitVec.eq_of_toNat_eq
  rw [idxField_toNat, formatFI_toNat]
  omega

@[simp] theorem idxField_formatFC : idxField (formatFC op idx red green blue) = idx := by
  apply BitVec.eq_of_toNat_eq
  rw [idxField_toNat, formatFC_toNat]
  omega

@[simp] theorem redField_formatFC : redField (formatFC op idx red green blue) = red := by
  apply BitVec.eq_of_toNat_eq
  rw [redField_toNat, formatFC_toNat]
  omega

@[simp] theorem greenField_formatFC : greenField (formatFC op idx red green blue) = green := by
  apply BitVec.eq_of_toNat_eq
  rw [greenField_toNat, formatFC_toNat]
  omega

@[simp] theorem blueField_formatFC : blueField (formatFC op idx red green blue) = blue := by
  apply BitVec.eq_of_toNat_eq
  rw [blueField_toNat, formatFC_toNat]
  omega

theorem formatFN_lt : (formatFN op).toNat < 2 ^ 8 := formatFN_toNat op ▸ op.isLt

theorem formatFV_lt : (formatFV op val).toNat < 2 ^ 16 := by
  rw [formatFV_toNat]
  omega

theorem formatFI_lt : (formatFI op idx).toNat < 2 ^ 24 := by
  rw [formatFI_toNat]
  omega

theorem formatFC_lt : (formatFC op idx red green blue).toNat < 2 ^ 48 := by
  rw [formatFC_toNat]
  omega

end fields

/-! ### Decode and encode (R316) -/

theorem requireZeroFrom_of_lt (h : w.toNat < 2 ^ lo) : requireZeroFrom w lo i = .ok i := if_pos h

theorem requireZeroFrom_of_ge (h : 2 ^ lo ≤ w.toNat) :
    requireZeroFrom w lo i = .error (.reservedBits (opField w)) := if_neg (Nat.not_lt.2 h)

/-- The opcode picks the command's line of R316, the format's word has no bit above its operands, and the fields read
them back. -/
theorem decode_encode (i : Instr) : decode (encode i) = .ok i := by
  cases i with
  | encodeChannel v => simp [encode, decode, requireZeroFrom_of_lt (formatFV_lt _ _)]
  | setColor x r g b => simp [encode, decode, requireZeroFrom_of_lt (formatFC_lt _ _ _ _ _)]
  | getColor x => simp [encode, decode, requireZeroFrom_of_lt (formatFI_lt _ _)]
  | setBrightness v => simp [encode, decode, requireZeroFrom_of_lt (formatFV_lt _ _)]
  | expandAll => rfl
  | writeNb => rfl
  | writeB => rfl
  | waitComplete => rfl
  | pollComplete => rfl

/-- A word with its reserved bits zero is the sum of its opcode and its fields in their places. -/
theorem placeValue_of_decode (h : decode w = .ok i) : placeValue i = w.toNat := by
  have hop : ∀ {n : Nat}, opField w = BitVec.ofNat 8 n → w.toNat % 256 = n % 256 := fun h => by
    rw [← opField_toNat, h, BitVec.toNat_ofNat]
  have hc := decode_ok_cases h
  cases i with
  | encodeChannel v =>
    obtain ⟨ho, hlt, rfl⟩ := hc
    have := hop ho
    simp only [placeValue, valField_toNat]
    omega
  | setColor x r g b =>
    obtain ⟨ho, hlt, rfl, rfl, rfl, rfl⟩ := hc
    have := hop ho
    simp only [placeValue, idxField_toNat, redField_toNat, greenField_toNat, blueField_toNat]
    omega
  | getColor x =>
    obtain ⟨ho, hlt, rfl⟩ := hc
    have := hop ho
    simp only [placeValue, idxField_toNat]
    omega
  | setBrightness v =>
    obtain ⟨ho, hlt, rfl⟩ := hc
    have := hop ho
    simp only [placeValue, valField_toNat]
    omega
  | _ =>
    obtain ⟨ho, hlt⟩ := hc
    have := hop ho
    simp only [placeValue]
    omega

theorem encode_of_decode (h : decode w = .ok i) : encode i = w :=
  BitVec.eq_of_toNat_eq ((encode_toNat i).trans (placeValue_of_decode h))

theorem decode_eq_ok_iff : decode w = .ok i ↔ encode i = w := ⟨encode_of_decode, fun h => h ▸ decode_encode i⟩

/-- Settles O1: the fields of a format's word are its operands, and a word that decodes is the sum of its fields. -/
theorem decodeAndEncodeAreInverse : Obligations.DecodeAndEncodeAreInverse :=
  ⟨decode_encode, fun _ _ => encode_of_decode⟩

/-- Settles O2: the encoding's number is the place value, so it is the word of that number. -/
theorem wordsByPlaceValueDecode : Obligations.WordsByPlaceValueDecode := fun i =>
  ⟨placeValue_lt i, encode_eq_ofNat_placeValue i, encode_eq_ofNat_placeValue i ▸ decode_encode i⟩

/-- Settles O5: each accepted word is its command's encoding; the last has opcode 0x06 and bit 8 set. -/
theorem specExampleWordsDecode : Obligations.SpecExampleWordsDecode :=
  ⟨decode_eq_ok_iff.2 rfl, decode_eq_ok_iff.2 rfl, decode_eq_ok_iff.2 rfl, decode_eq_ok_iff.2 rfl,
    decode_eq_ok_iff.2 rfl, decode_eq_ok_iff.2 rfl, requireZeroFrom_of_ge (by decide)⟩

/-! ### The opcodes and the rows of the table (R313, R314) -/

theorem reservedFrom_eq_none_iff {op : Byte} : reservedFrom op = none ↔ op = 0x00#8 ∨ 0x0A#8 ≤ op := by
  unfold reservedFrom
  split_ifs with h1 h2 h3 h4 h5
  · subst h1; decide
  · subst h2; decide
  · subst h3; decide
  · subst h4; decide
  · rcases h5 with rfl | rfl | rfl | rfl | rfl <;> decide
  · simp only [true_iff]; bv_omega

/-- What the decoder does with a word, by its opcode: a listed one requires zero from its format's lowest reserved bit
up, every other one is refused. -/
theorem decode_by_opcode (w : CmdWord) :
    (reservedFrom (opField w) = none ∧ decode w = .error (.reservedOpcode (opField w))) ∨
    ∃ lo i, reservedFrom (opField w) = some lo ∧ decode w = requireZeroFrom w lo i := by
  have hlisted : ∀ (op : Byte) {lo : Nat}, (opField w).toNat = op.toNat → reservedFrom op = some lo →
      reservedFrom (opField w) = some lo := fun op _ h hr => (BitVec.eq_of_toNat_eq h : opField w = op) ▸ hr
  unfold decode
  split
  case h_1 h => exact .inr ⟨16, _, hlisted 0x01#8 h rfl, rfl⟩
  case h_2 h => exact .inr ⟨48, _, hlisted 0x02#8 h rfl, rfl⟩
  case h_3 h => exact .inr ⟨24, _, hlisted 0x03#8 h rfl, rfl⟩
  case h_4 h => exact .inr ⟨16, _, hlisted 0x04#8 h rfl, rfl⟩
  case h_5 h => exact .inr ⟨8, _, hlisted 0x05#8 h rfl, rfl⟩
  case h_6 h => exact .inr ⟨8, _, hlisted 0x06#8 h rfl, rfl⟩
  case h_7 h => exact .inr ⟨8, _, hlisted 0x07#8 h rfl, rfl⟩
  case h_8 h => exact .inr ⟨8, _, hlisted 0x08#8 h rfl, rfl⟩
  case h_9 h => exact .inr ⟨8, _, hlisted 0x09#8 h rfl, rfl⟩
  case h_10 => exact .inl ⟨by simp_all [reservedFrom, ← BitVec.toNat_inj], rfl⟩

theorem decode_of_unlisted (h : reservedFrom (opField w) = none) : decode w = .error (.reservedOpcode (opField w)) := by
  obtain ⟨-, hd⟩ | ⟨lo, i, hlo, -⟩ := decode_by_opcode w
  · exact hd
  · rw [h] at hlo
    cases hlo

theorem decode_of_listed (h : reservedFrom (opField w) = some lo) : ∃ i, decode w = requireZeroFrom w lo i := by
  obtain ⟨hn, -⟩ | ⟨lo', i, hlo, hd⟩ := decode_by_opcode w
  · rw [h] at hn
    cases hn
  · rw [h] at hlo
    cases hlo
    exact ⟨i, hd⟩

theorem decode_of_reservedBit (h : reservedFrom (opField w) = some lo) (hlo : 2 ^ lo ≤ w.toNat) :
    decode w = .error (.reservedBits (opField w)) := by
  obtain ⟨i, hd⟩ := decode_of_listed h
  rw [hd, requireZeroFrom_of_ge hlo]

theorem decode_isOk_iff : (∃ i, decode w = .ok i) ↔ ∃ lo, reservedFrom (opField w) = some lo ∧ w.toNat < 2 ^ lo := by
  constructor
  · rintro ⟨i, hi⟩
    cases h : reservedFrom (opField w) with
    | none =>
      rw [decode_of_unlisted h] at hi
      cases hi
    | some lo =>
      refine ⟨lo, rfl, Nat.lt_of_not_le fun hge => ?_⟩
      rw [decode_of_reservedBit h hge] at hi
      cases hi
  · rintro ⟨lo, h, hlt⟩
    obtain ⟨i, hd⟩ := decode_of_listed h
    exact ⟨i, hd.trans (requireZeroFrom_of_lt hlt)⟩

/-- The mask of a format whose lowest reserved bit is `lo`: the opcode and every reserved bit. -/
def formatMask (lo : Nat) : CmdWord := BitVec.allOnes 64 <<< lo ||| (BitVec.allOnes 8).setWidth 64

theorem getLsbD_and_formatMask (w : CmdWord) (lo k : Nat) :
    (w &&& formatMask lo).getLsbD k = (w.getLsbD k && (decide (lo ≤ k) || decide (k < 8))) := by
  by_cases hk : k < 64
  · have : k - lo < 64 := by omega
    simp only [formatMask, BitVec.getLsbD_and, BitVec.getLsbD_or, BitVec.getLsbD_shiftLeft, BitVec.getLsbD_setWidth,
      BitVec.getLsbD_allOnes, hk, this]
    simp [← decide_not]
  · rw [BitVec.getLsbD_of_ge _ k (Nat.not_lt.1 hk), BitVec.getLsbD_of_ge w k (Nat.not_lt.1 hk), Bool.false_and]

theorem getLsbD_opField (w : CmdWord) (k : Nat) : (opField w).getLsbD k = (decide (k < 8) && w.getLsbD k) := by
  rw [opField, BitVec.getLsbD_extractLsb', Nat.zero_add]

theorem toNat_lt_two_pow_iff : w.toNat < 2 ^ lo ↔ ∀ k, lo ≤ k → w.getLsbD k = false :=
  ⟨fun h _ hk => Nat.testBit_lt_two_pow (h.trans_le (Nat.pow_le_pow_right (by decide) hk)),
    Nat.lt_pow_two_of_testBit _⟩

/-- The masked bits of a word are an opcode alone exactly when that is its opcode and its reserved bits are zero. -/
theorem and_formatMask_eq_iff {op : Byte} (hlo : 8 ≤ lo) :
    w &&& formatMask lo = op.setWidth 64 ↔ opField w = op ∧ w.toNat < 2 ^ lo := by
  rw [toNat_lt_two_pow_iff]
  constructor
  · intro h
    have hbit : ∀ k, (w.getLsbD k && (decide (lo ≤ k) || decide (k < 8))) = (op.setWidth 64).getLsbD k :=
      fun k => by rw [← h, getLsbD_and_formatMask]
    refine ⟨BitVec.eq_of_getLsbD_eq fun k hk => ?opcode, fun k hk => ?reserved⟩
    case opcode =>
      rw [getLsbD_opField]
      simpa [BitVec.getLsbD_setWidth, hk, show k < 64 by omega] using hbit k
    case reserved =>
      simpa [BitVec.getLsbD_setWidth, hk, BitVec.getLsbD_of_ge op k (hlo.trans hk)] using hbit k
  · rintro ⟨rfl, hzero⟩
    refine BitVec.eq_of_getLsbD_eq fun k hk => ?_
    rw [getLsbD_and_formatMask, BitVec.getLsbD_setWidth, getLsbD_opField]
    rcases Nat.lt_or_ge k lo with hlt | hge
    · simp [hk, Nat.not_le.2 hlt, Bool.and_comm]
    · simp [hzero k hge]

/-- A row of the table is its opcode and its format's mask. -/
theorem mem_opcodeTable {r : OpcodeRow} (h : r ∈ opcodeTable) :
    r.value = (opField r.value).setWidth 64 ∧ (reservedFrom (opField r.value)).map formatMask = some r.mask := by
  revert h r
  decide

theorem map_opField_opcodeTable : opcodeTable.map (fun r => opField r.value) =
    [0x01#8, 0x02#8, 0x03#8, 0x04#8, 0x05#8, 0x06#8, 0x07#8, 0x08#8, 0x09#8] := rfl

theorem exists_row_of_listed {op : Byte} (h : reservedFrom op = some lo) : ∃ r ∈ opcodeTable, opField r.value = op := by
  rw [← List.mem_map, map_opField_opcodeTable]
  by_contra hn
  simp_all [reservedFrom]

theorem eq_of_opField_eq : ∀ r ∈ opcodeTable, ∀ r' ∈ opcodeTable, opField r.value = opField r'.value → r = r' := by
  decide

theorem eight_le_of_listed {op : Byte} (h : reservedFrom op = some lo) : 8 ≤ lo := by
  unfold reservedFrom at h
  split_ifs at h <;> cases h <;> decide

/-- A word is a row's exactly when it has the row's opcode and its reserved bits are zero. -/
theorem matches_iff {r : OpcodeRow} (hr : r ∈ opcodeTable) :
    r.matches w = true ↔
      opField w = opField r.value ∧ ∃ lo, reservedFrom (opField w) = some lo ∧ w.toNat < 2 ^ lo := by
  obtain ⟨hvalue, hmask⟩ := mem_opcodeTable hr
  obtain ⟨lo, hlo, hmask⟩ := Option.map_eq_some_iff.1 hmask
  have hrow : r.matches w = true ↔ opField w = opField r.value ∧ w.toNat < 2 ^ lo := by
    rw [OpcodeRow.matches, beq_iff_eq, ← hmask, hvalue, and_formatMask_eq_iff (eight_le_of_listed hlo), ← hvalue]
  rw [hrow]
  refine and_congr_right fun hop => ?_
  simp [hop, hlo]

/-- Settles O3: both sides say that the opcode is listed and the bits from its lowest reserved bit up are zero, and the
nine opcodes differ. -/
theorem decoderAcceptsExactlyTheTableRows : Obligations.DecoderAcceptsExactlyTheTableRows := by
  refine ⟨fun w => decode_isOk_iff.trans ⟨?_, ?_⟩, fun w r hr r' hr' h h' => ?_⟩
  · rintro ⟨lo, hlo, hlt⟩
    obtain ⟨r, hr, hop⟩ := exists_row_of_listed hlo
    exact ⟨r, hr, (matches_iff hr).2 ⟨hop.symm, lo, hlo, hlt⟩⟩
  · rintro ⟨r, hr, h⟩
    exact ((matches_iff hr).1 h).2
  · exact eq_of_opField_eq r hr r' hr' (((matches_iff hr).1 h).1.symm.trans ((matches_iff hr').1 h').1)

end Sys2Proof

/-! PROOFS. The host's next command: the step that is the host's runs the decoded command, and a reserved word is never
executed (30_encoding.md R310, R314, R316; log entries 7, 8 and 10). -/

namespace Sys2Proof.Machine

variable {s t : State} {w : CmdWord} {rest : List HostAct} {act : HostAct} {i : Instr} {a : Agent} {sc : List Turn}

/-! ### The host's turn -/

theorem hostEnabled_of_cmds (hr : s.hostReady) (hc : s.cmds = act :: rest) : hostEnabled s = true := by
  simp [hostEnabled, hr.1, hr.2, hc]

theorem step_of_no_hardware (hr : s.hostReady) (hc : s.cmds = act :: rest) (ha : hardwareAgent s = none) :
    step s = hostStep s :=
  step_of_host hr.1 (hostEnabled_of_cmds hr hc) ha

theorem step_of_host_scheduled (hr : s.hostReady) (hc : s.cmds = act :: rest) (ha : hardwareAgent s = some a)
    (hs : s.sched = .host :: sc) : step s = hostStep { s with sched := sc } := by
  rw [step_of_choice hr.1 (hostEnabled_of_cmds hr hc) ha, takeTurn, hs]

/-- With the schedule used up, the free value decides (log entry 8). -/
theorem step_of_sched_nil (hr : s.hostReady) (hc : s.cmds = act :: rest) (ha : hardwareAgent s = some a)
    (hs : s.sched = []) :
    step s = if s.lead < Config.freeLead s.turns then hostStep { s with lead := s.lead + 1 }
      else agentStep a { s with turns := s.turns + 1, lead := 0 } := by
  rw [step_of_choice hr.1 (hostEnabled_of_cmds hr hc) ha, takeTurn, hs]
  split_ifs <;> rfl

theorem hostStep_of_decode (hw : s.hwait = .run) (hc : s.cmds = .issue w :: rest) (hd : decode w = .ok i) :
    hostStep s = exec i { s with cmds := rest } := by
  simp only [hostStep, hw, hc, hd]

theorem hostStep_of_reserved {why : DecodeRefusal} (hw : s.hwait = .run) (hc : s.cmds = .issue w :: rest)
    (hd : decode w = .error why) : hostStep s = .refused (.reservedWord why) := by
  simp only [hostStep, hw, hc, hd]

theorem hostStep_of_poll (hw : s.hwait = .run) (hc : s.cmds = .pollUntilDone :: rest) :
    hostStep s = pollRound rest s := by
  simp only [hostStep, hw, hc]

/-- Settles O45: which of the host's and the hardware's step it is, then what the host's step does with the first entry
of its list. -/
theorem aStepRunsTheDecodedCommand : Obligations.AStepRunsTheDecodedCommand := by
  refine ⟨fun s w rest i hr hc hd => ⟨fun ha => ?alone, fun a sc ha hs => ?scheduled, fun a ha hs => ?free⟩,
    fun s rest hr hc => ⟨fun ha => ?pollAlone, fun a sc ha hs => ?pollScheduled⟩⟩
  case alone => rw [step_of_no_hardware hr hc ha, hostStep_of_decode hr.2 hc hd]
  case scheduled =>
    rw [step_of_host_scheduled hr hc ha hs]
    exact hostStep_of_decode (s := { s with sched := sc }) hr.2 hc hd
  case free =>
    rw [step_of_sched_nil hr hc ha hs]
    exact if_congr Iff.rfl (hostStep_of_decode (s := { s with lead := s.lead + 1 }) hr.2 hc hd) rfl
  case pollAlone =>
    rw [step_of_no_hardware hr hc ha, hostStep_of_poll hr.2 hc]
    exact pollRound_of_ready hr
  case pollScheduled =>
    rw [step_of_host_scheduled hr hc ha hs, hostStep_of_poll (s := { s with sched := sc }) hr.2 hc]
    exact pollRound_of_ready (s := { s with sched := sc }) hr

/-! ### A fetched word -/

theorem issueNext_sched_of_none (ha : hardwareAgent s = none) : (issueNext w s).sched = s.sched := by
  simp [issueNext, ha]

theorem issueNext_sched_of_some (ha : hardwareAgent s = some a) : (issueNext w s).sched = .host :: s.sched := by
  simp [issueNext, ha]

/-- Settles O46: the word is first in the list, and where the hardware could go first, the host first in the schedule,
running it takes both off again. An issue changes nothing that `hardwareAgent` reads. -/
theorem aFetchedWordIsTheNextStep : Obligations.AFetchedWordIsTheNextStep := by
  intro s nbits w i hr hd
  obtain ⟨hrun, -⟩ := aStepRunsTheDecodedCommand
  obtain ⟨halone, hscheduled, -⟩ := hrun (s.withFetchWord nbits w) (tableWord nbits w) s.cmds i hr rfl hd
  cases ha : hardwareAgent s with
  | none =>
    rw [halone ha]
    exact congrArg (fun sc => exec i { s with sched := sc }) (issueNext_sched_of_none ha)
  | some a => exact hscheduled a s.sched ha (issueNext_sched_of_some ha)

/-! ### A reserved word -/

/-- On the host's turn the step is the host's, on the state with the model's own schedule fields moved on. -/
theorem step_of_host_turn (hr : s.hostReady) (hc : s.cmds = act :: rest)
    (h : hardwareAgent s = none ∨ (∃ sc, s.sched = .host :: sc) ∨ s.sched = [] ∧ s.lead < Config.freeLead s.turns) :
    ∃ sc ld, step s = hostStep { s with sched := sc, lead := ld } := by
  cases ha : hardwareAgent s with
  | none => exact ⟨s.sched, s.lead, step_of_no_hardware hr hc ha⟩
  | some a =>
    obtain h | ⟨sc, hs⟩ | ⟨hs, hl⟩ := h
    · rw [ha] at h
      cases h
    · exact ⟨sc, s.lead, step_of_host_scheduled hr hc ha hs⟩
    · exact ⟨s.sched, s.lead + 1, (step_of_sched_nil hr hc ha hs).trans (if_pos hl)⟩

theorem agentStep_keeps_cmds (hn : a ≠ .host) (h : agentStep a s = .next t) : t.cmds = s.cmds := by
  cases a with
  | host => exact absurd rfl hn
  | dma =>
    obtain ⟨b, -, rfl⟩ := dmaBeat_next h
    rfl
  | completion =>
    rw [completionEvent_next h]
    rfl

/-- Settles O4: the decoder refuses by the opcode and the lowest reserved bit of its format; the host's step on a
refused word is the refusal, so a step that goes on is another agent's, and those leave the host's list. -/
theorem reservedWordsAreRefusedAndNeverExecuted : Obligations.ReservedWordsAreRefusedAndNeverExecuted := by
  refine ⟨fun w h => decode_of_unlisted (reservedFrom_eq_none_iff.2 h), fun w lo => decode_of_reservedBit,
    fun s w rest why hr hc hd => ⟨fun hturn => ?hostTurn, fun t ht => ?goesOn⟩⟩
  case hostTurn =>
    obtain ⟨sc, ld, hstep⟩ := step_of_host_turn hr hc hturn
    rw [hostStep_of_reserved (s := { s with sched := sc, lead := ld }) hr.2 hc hd] at hstep
    exact ⟨hstep, fun k => run_succ_of_refused hstep⟩
  case goesOn =>
    obtain ⟨-, a, sc, tu, ld, -, ha⟩ := step_next ht
    have hn : a ≠ .host := by
      rintro rfl
      have hrefused := hostStep_of_reserved (s := { s with sched := sc, turns := tu, lead := ld }) hr.2 hc hd
      rw [agentStep, hrefused] at ha
      cases ha
    exact ⟨(agentStep_keeps_cmds hn ha :), a, sc, tu, ld, hn, ha⟩

end Sys2Proof.Machine

/-! PROOFS. The assembler (30_encoding.md R312, R317; log entry 18): which lines assemble, and to what. -/

namespace Sys2Proof.Machine

open Claims

variable {l : AsmLine} {m : Mnemonic} {i : Instr} {xs : List AsmNumber} {vs ws : List Nat}

/-! ### Which lines are well formed -/

/-- Each value fits the field of its place, and there is one for each field. -/
abbrev ValuesFit (vs ws : List Nat) : Prop := List.Forall₂ (fun v w => v < 2 ^ w) vs ws

theorem operandsFit_iff_forall₂ :
    operandsFit xs ws = true ↔ List.Forall₂ (fun x w => x.wf = true ∧ x.value < 2 ^ w) xs ws := by
  induction xs generalizing ws with
  | nil => cases ws <;> simp [operandsFit]
  | cons x xs ih => cases ws <;> simp [operandsFit, ih]

theorem operandsFit_iff :
    operandsFit xs ws = true ↔ (∀ x ∈ xs, x.wf = true) ∧ ValuesFit (xs.map AsmNumber.value) ws := by
  rw [operandsFit_iff_forall₂, List.forall₂_and_left, ValuesFit, List.forall₂_map_left_iff]

/-! ### The command a line spells -/

theorem buildInstr_operandValues (i : Instr) : buildInstr (mnemonicOf i) (operandValues i) = some i := by
  cases i <;> simp [buildInstr, mnemonicOf, operandValues]

theorem operandValues_fit (i : Instr) : ValuesFit (operandValues i) (mnemonicOf i).operandWidths := by
  cases i with
  | encodeChannel v => exact .cons v.isLt .nil
  | setColor x r g b => exact .cons x.isLt (.cons r.isLt (.cons g.isLt (.cons b.isLt .nil)))
  | getColor x => exact .cons x.isLt .nil
  | setBrightness v => exact .cons v.isLt .nil
  | _ => exact .nil

/-- Values that fit a mnemonic's fields are the operands of one of its commands. -/
theorem exists_instr_of_valuesFit (h : ValuesFit vs m.operandWidths) : ∃ i, m = mnemonicOf i ∧ vs = operandValues i :=
  match m, vs, h with
  | .encodeChannel, [v], .cons hv .nil => ⟨.encodeChannel (.ofNatLT v hv), rfl, rfl⟩
  | .setColor, [x, r, g, b], .cons hx (.cons hr (.cons hg (.cons hb .nil))) =>
    ⟨.setColor (.ofNatLT x hx) (.ofNatLT r hr) (.ofNatLT g hg) (.ofNatLT b hb), rfl, rfl⟩
  | .getColor, [x], .cons hx .nil => ⟨.getColor (.ofNatLT x hx), rfl, rfl⟩
  | .setBrightness, [v], .cons hv .nil => ⟨.setBrightness (.ofNatLT v hv), rfl, rfl⟩
  | .expandAll, [], .nil => ⟨.expandAll, rfl, rfl⟩
  | .writeNb, [], .nil => ⟨.writeNb, rfl, rfl⟩
  | .writeB, [], .nil => ⟨.writeB, rfl, rfl⟩
  | .waitComplete, [], .nil => ⟨.waitComplete, rfl, rfl⟩
  | .pollComplete, [], .nil => ⟨.pollComplete, rfl, rfl⟩

theorem buildInstr_eq_some_iff (h : ValuesFit vs m.operandWidths) :
    buildInstr m vs = some i ↔ m = mnemonicOf i ∧ vs = operandValues i := by
  constructor
  · intro hb
    obtain ⟨j, rfl, rfl⟩ := exists_instr_of_valuesFit h
    rw [buildInstr_operandValues] at hb
    cases hb
    exact ⟨rfl, rfl⟩
  · rintro ⟨rfl, rfl⟩
    exact buildInstr_operandValues i

theorem assemble_eq_some_iff : assemble l = some i ↔
    l.mnemonic = mnemonicOf i ∧ (∀ x ∈ l.operands, x.wf = true) ∧ l.operands.map AsmNumber.value = operandValues i := by
  constructor
  · intro h
    obtain ⟨hwf, hb⟩ := Option.ite_none_right_eq_some.1 h
    obtain ⟨hdigits, hfit⟩ := operandsFit_iff.1 hwf
    obtain ⟨hm, hv⟩ := (buildInstr_eq_some_iff hfit).1 hb
    exact ⟨hm, hdigits, hv⟩
  · rintro ⟨hm, hdigits, hv⟩
    have hwf : l.wf = true := operandsFit_iff.2 ⟨hdigits, hm ▸ hv ▸ operandValues_fit i⟩
    rw [assemble, if_pos hwf, hm, hv, buildInstr_operandValues]

/-- A line assembles exactly when it is well formed: its values are then a command's. -/
theorem assemble_isSome_iff : (assemble l).isSome = true ↔ l.wf = true := by
  constructor
  · intro h
    obtain ⟨i, hi⟩ := Option.isSome_iff_exists.1 h
    exact (Option.ite_none_right_eq_some.1 hi).1
  · intro hwf
    obtain ⟨hdigits, hfit⟩ := operandsFit_iff.1 hwf
    obtain ⟨i, hm, hv⟩ := exists_instr_of_valuesFit hfit
    exact Option.isSome_iff_exists.2 ⟨i, assemble_eq_some_iff.2 ⟨hm, hdigits, hv⟩⟩

theorem AsmLine.wf_iff : l.wf = true ↔ l.operands.length = l.mnemonic.operandWidths.length ∧
    ∀ p ∈ l.operands.zip l.mnemonic.operandWidths, p.1.wf = true ∧ p.1.value < 2 ^ p.2 := by
  rw [AsmLine.wf, operandsFit_iff_forall₂, List.forall₂_iff_zip]
  exact and_congr_right fun _ => ⟨fun h _ hp => h hp, fun h _ _ hp => h _ hp⟩

/-! ### A command written out -/

theorem value_hexNumber {n : Nat} (h : n < 2 ^ 16) : (hexNumber n).value = n := by
  simp only [hexNumber, AsmNumber.value, List.foldl_cons, List.foldl_nil, Fin.val_ofNat]
  omega

theorem disassemble_operands (i : Instr) : (disassemble i).operands = (operandValues i).map hexNumber := by
  cases i <;> rfl

theorem operandValues_lt {v : Nat} (h : v ∈ operandValues i) : v < 2 ^ 16 := by
  cases i <;> simp only [operandValues, List.mem_cons, List.not_mem_nil, or_false] at h <;> omega

theorem assemble_disassemble (i : Instr) : assemble (disassemble i) = some i := by
  refine assemble_eq_some_iff.2 ⟨rfl, ?digits, ?values⟩
  case digits =>
    intro x hx
    rw [disassemble_operands] at hx
    obtain ⟨n, -, rfl⟩ := List.mem_map.1 hx
    rfl
  case values =>
    rw [disassemble_operands, List.map_map]
    exact (List.map_congr_left fun v hv => value_hexNumber (operandValues_lt hv)).trans (List.map_id _)

/-! ### The value of a number -/

/-- Horner's rule, left to right, is the number whose digits, least first, are these reversed. -/
theorem foldl_digits_eq_ofDigits {α : Type} (b : Nat) (f : α → Nat) (ds : List α) :
    ds.foldl (fun n d => b * n + f d) 0 = Nat.ofDigits b (ds.reverse.map f) := by
  rw [Nat.ofDigits_eq_foldr, List.foldr_map, List.foldr_reverse]
  simp only [Nat.cast_id, Nat.add_comm]

/-- Settles O6: a line's operands fit its mnemonic's fields exactly when they are the operands of one of its commands,
whose word they then spell. -/
theorem assemblerTextRoundTrips : Obligations.AssemblerTextRoundTrips :=
  ⟨fun i => ⟨assemble_isSome_iff.1 (Option.isSome_of_eq_some (assemble_disassemble i)), assemble_disassemble i⟩,
    fun _ => assemble_isSome_iff.trans AsmLine.wf_iff, fun _ _ => assemble_eq_some_iff,
    foldl_digits_eq_ofDigits 10 Fin.val, foldl_digits_eq_ofDigits 16 Fin.val⟩

end Sys2Proof.Machine

/-! PROOFS. The layout of a channel's pattern, and the line it becomes (30_encoding.md R300 to R302, R305). -/

namespace Sys2Proof.Machine

open Claims

/-! ### The bits of a pattern -/

theorem nibblePattern_bits (n : BitVec 4) {i : Nat} (hi : i < 4) :
    (nibblePattern n).getLsbD (3 * i + 2) = true ∧ (nibblePattern n).getLsbD (3 * i + 1) = n.getLsbD i ∧
      (nibblePattern n).getLsbD (3 * i) = false := by
  interval_cases i <;> simp [nibblePattern]

theorem nibblePattern_masks (n : BitVec 4) :
    nibblePattern n &&& 0x924#12 = 0x924#12 ∧ nibblePattern n &&& 0x249#12 = 0#12 := by
  revert n
  decide

theorem channelPattern_low (v : Byte) {k : Nat} (hk : k < 12) :
    (channelPattern v).getLsbD k = (nibblePattern (v.extractLsb' 0 4)).getLsbD k := by
  rw [channelPattern, BitVec.getLsbD_append, if_pos hk]

theorem channelPattern_high (v : Byte) (k : Nat) :
    (channelPattern v).getLsbD (k + 12) = (nibblePattern (v.extractLsb' 4 4)).getLsbD k := by
  rw [channelPattern, BitVec.getLsbD_append, if_neg (by omega), Nat.add_sub_cancel]

/-- Triple `j` of a channel is `1, v[j], 0`: the low nibble's triple `j`, or the high nibble's triple `j - 4`. -/
theorem channelPattern_bits (v : Byte) {j : Nat} (hj : j < 8) :
    (channelPattern v).getLsbD (3 * j + 2) = true ∧ (channelPattern v).getLsbD (3 * j + 1) = v.getLsbD j ∧
      (channelPattern v).getLsbD (3 * j) = false := by
  rcases Nat.lt_or_ge j 4 with hlow | hhigh
  · have hn := nibblePattern_bits (v.extractLsb' 0 4) hlow
    rw [channelPattern_low v (by omega), channelPattern_low v (by omega), channelPattern_low v (by omega)]
    simpa [BitVec.getLsbD_extractLsb', hlow] using hn
  · obtain ⟨i, rfl⟩ := Nat.exists_eq_add_of_le' hhigh
    have hi : i < 4 := by omega
    have hn := nibblePattern_bits (v.extractLsb' 4 4) hi
    rw [show 3 * (i + 4) + 2 = 3 * i + 2 + 12 by omega, show 3 * (i + 4) + 1 = 3 * i + 1 + 12 by omega,
      show 3 * (i + 4) = 3 * i + 12 by omega, channelPattern_high, channelPattern_high, channelPattern_high]
    simpa [BitVec.getLsbD_extractLsb', hi, Nat.add_comm 4 i] using hn

theorem channelPattern_masks (v : Byte) :
    channelPattern v &&& 0x924924#24 = 0x924924#24 ∧ channelPattern v &&& 0x249249#24 = 0#24 := by
  obtain ⟨hones, hzeros⟩ := nibblePattern_masks (v.extractLsb' 4 4)
  obtain ⟨lowOnes, lowZeros⟩ := nibblePattern_masks (v.extractLsb' 0 4)
  rw [channelPattern, show 0x924924#24 = 0x924#12 ++ 0x924#12 from rfl,
    show 0x249249#24 = 0x249#12 ++ 0x249#12 from rfl, BitVec.and_append, BitVec.and_append, hones, hzeros, lowOnes, lowZeros]
  exact ⟨rfl, rfl⟩

/-! ### The order on the line -/

/-- The three bytes of a pattern leave as its bits 23 down to 0 (R302, 20_memory.md R205). -/
theorem lineBits_packPattern (q : Pattern) :
    lineBits (packPattern q) = (List.range 24).map fun k => q.getLsbD (23 - k) := by
  simp [lineBits, packPattern, serialBits, List.range_succ]

/-- Settles O8: the places and masks are the nibbles', whose patterns are the two halves; bit `23 - k` leaves as the
`k`-th. -/
theorem channelPatternLayout : Obligations.ChannelPatternLayout := by
  refine ⟨fun v _ => channelPattern_bits v, channelPattern_masks, by decide, fun n _ => nibblePattern_bits n,
    fun v => ⟨BitVec.extractLsb'_append_eq_left, BitVec.extractLsb'_append_eq_right⟩, fun v k hk => ?order⟩
  case order => rw [lineBits_packPattern, List.getElem?_map, List.getElem?_range hk, Option.map_some]

/-! ### The triples on the line -/

theorem encPattern_bit (c : Config) (v : Byte) {k : Nat} (hk : k < 24) :
    (encPattern c v).getLsbD k = xor c.invert ((channelPattern v).getLsbD k) := by
  have hones : (0xFFFFFF#24).getLsbD k = true := by
    rw [show 0xFFFFFF#24 = BitVec.allOnes 24 from rfl, BitVec.getLsbD_allOnes, decide_eq_true hk]
  cases hi : c.invert with
  | true => simp [encPattern, applyPolarity, hi, hones]
  | false => simp [encPattern, applyPolarity, hi]

/-- The three bits of the transmitted pattern at data bit `j`'s place. -/
theorem encPattern_triple (c : Config) (v : Byte) {j : Nat} (hj : j < 8) :
    triple c.invert v[j] = [(encPattern c v).getLsbD (3 * j + 2), (encPattern c v).getLsbD (3 * j + 1),
      (encPattern c v).getLsbD (3 * j)] := by
  obtain ⟨hone, hdata, hzero⟩ := channelPattern_bits v hj
  rw [encPattern_bit c v (by omega), encPattern_bit c v (by omega), encPattern_bit c v (by omega), hone, hdata, hzero,
    BitVec.getLsbD_eq_getElem hj]
  rfl

/-- Settles O7: the line carries bits 23 down to 0 of the transmitted pattern, which in threes are the triples. -/
theorem lineCarriesATripleForEachDataBit : Obligations.LineCarriesATripleForEachDataBit := by
  refine ⟨fun c v => ?line, fun c => rfl⟩
  case line =>
    rw [bytes3, lineBits_packPattern]
    simp only [encPattern_triple c v]
    rfl

end Sys2Proof.Machine

/-! PROOFS. The bit expander (40_bit_expander.md): the polarity, DEC as the inverse of ENC, a pattern as the sum of its
data bits, the order of the patterns, the three bytes, and ENCODE_CHANNEL. -/

namespace Sys2Proof.Machine

open Claims

variable {c : Config} {p q : Pattern} {v : Byte}

/-! ### Polarity (R404) -/

theorem applyPolarity_of_inverted (h : c.invert = true) (q : Pattern) : applyPolarity c q = ~~~q := by
  rw [applyPolarity, if_pos h, show 0xFFFFFF#24 = BitVec.allOnes 24 from rfl, BitVec.xor_allOnes]

theorem applyPolarity_of_not_inverted (h : c.invert = false) (q : Pattern) : applyPolarity c q = q := by
  rw [applyPolarity, h, if_neg Bool.false_ne_true]

/-- Undoing the polarity is applying it again. -/
theorem applyPolarity_applyPolarity (c : Config) (q : Pattern) : applyPolarity c (applyPolarity c q) = q := by
  cases hi : c.invert with
  | true => rw [applyPolarity_of_inverted hi, applyPolarity_of_inverted hi, BitVec.not_not]
  | false => rw [applyPolarity_of_not_inverted hi, applyPolarity_of_not_inverted hi]

theorem applyPolarity_bit (c : Config) (q : Pattern) {k : Nat} (hk : k < 24) :
    (applyPolarity c q).getLsbD k = xor c.invert (q.getLsbD k) := by
  cases hi : c.invert with
  | true => simp [applyPolarity_of_inverted hi, hk]
  | false => simp [applyPolarity_of_not_inverted hi]

theorem encPattern_eq_iff : encPattern c v = q ↔ channelPattern v = applyPolarity c q := by
  constructor
  · rintro rfl
    exact (applyPolarity_applyPolarity c _).symm
  · intro h
    rw [encPattern, h, applyPolarity_applyPolarity]

/-! ### DEC (R407) -/

theorem decPattern_bit (c : Config) (q : Pattern) {j : Nat} (hj : j < 8) :
    (decPattern c q).getLsbD j = (applyPolarity c q).getLsbD (3 * j + 1) := by
  simp only [decPattern, BitVec.getLsbD_append, BitVec.getLsbD_extractLsb']
  interval_cases j <;> simp

theorem decPattern_encPattern (c : Config) (v : Byte) : decPattern c (encPattern c v) = v := by
  refine BitVec.eq_of_getLsbD_eq fun j hj => ?_
  obtain ⟨-, hdata, -⟩ := channelPattern_bits v hj
  rw [decPattern_bit c _ hj, encPattern, applyPolarity_applyPolarity, hdata]

theorem encPattern_injective (c : Config) : Function.Injective (encPattern c) :=
  Function.LeftInverse.injective (decPattern_encPattern c)

/-! ### The valid patterns (R407) -/

/-- Every place of a pattern is one of a triple's three. -/
theorem eq_of_triples_eq (h : ∀ j, j < 8 → p.getLsbD (3 * j + 2) = q.getLsbD (3 * j + 2) ∧
    p.getLsbD (3 * j + 1) = q.getLsbD (3 * j + 1) ∧ p.getLsbD (3 * j) = q.getLsbD (3 * j)) : p = q := by
  refine BitVec.eq_of_getLsbD_eq fun k hk => ?_
  obtain ⟨hone, hdata, hzero⟩ := h (k / 3) (by omega)
  obtain hk' | hk' | hk' : k = 3 * (k / 3) ∨ k = 3 * (k / 3) + 1 ∨ k = 3 * (k / 3) + 2 := by omega
  · rwa [hk']
  · rwa [hk']
  · rwa [hk']

theorem getLsbD_of_onesMask (h : p &&& 0x924924#24 = 0x924924#24) {j : Nat} (hj : j < 8) :
    p.getLsbD (3 * j + 2) = true := by
  have hmask : ∀ i < 8, (0x924924#24).getLsbD (3 * i + 2) = true := by decide
  have hbit := congrArg (BitVec.getLsbD · (3 * j + 2)) h
  rwa [BitVec.getLsbD_and, hmask j hj, Bool.and_true] at hbit

theorem getLsbD_of_zerosMask (h : p &&& 0x249249#24 = 0#24) {j : Nat} (hj : j < 8) : p.getLsbD (3 * j) = false := by
  have hmask : ∀ i < 8, (0x249249#24).getLsbD (3 * i) = true := by decide
  have hbit := congrArg (BitVec.getLsbD · (3 * j)) h
  rwa [BitVec.getLsbD_and, hmask j hj, Bool.and_true, BitVec.getLsbD_zero] at hbit

/-- With the fixed bits in place only the data bits are free, and DEC reads them. -/
theorem channelPattern_decPattern (hones : applyPolarity c q &&& 0x924924#24 = 0x924924#24)
    (hzeros : applyPolarity c q &&& 0x249249#24 = 0#24) : channelPattern (decPattern c q) = applyPolarity c q := by
  refine eq_of_triples_eq fun j hj => ?_
  obtain ⟨hone, hdata, hzero⟩ := channelPattern_bits (decPattern c q) hj
  rw [hone, hdata, hzero, getLsbD_of_onesMask hones hj, decPattern_bit c q hj, getLsbD_of_zerosMask hzeros hj]
  exact ⟨rfl, rfl, rfl⟩

theorem masks_iff_exists_encPattern : (applyPolarity c q &&& 0x924924#24 = 0x924924#24 ∧
    applyPolarity c q &&& 0x249249#24 = 0#24) ↔ ∃ v, encPattern c v = q := by
  constructor
  · rintro ⟨hones, hzeros⟩
    exact ⟨decPattern c q, encPattern_eq_iff.2 (channelPattern_decPattern hones hzeros)⟩
  · rintro ⟨v, hv⟩
    rw [← encPattern_eq_iff.1 hv]
    exact channelPattern_masks v

theorem validPattern_iff : validPattern c q = true ↔
    applyPolarity c q &&& 0x924924#24 = 0x924924#24 ∧ applyPolarity c q &&& 0x249249#24 = 0#24 := by
  rw [validPattern, Bool.and_eq_true, beq_iff_eq, beq_iff_eq]

/-- Settles O10: DEC reads the places where ENC puts the data bits, and a pattern with its fixed bits in place is the
encoding of what DEC reads from it. -/
theorem decodingTheWaveformUndoesEncoding : Obligations.DecodingTheWaveformUndoesEncoding := by
  refine ⟨fun c q j hj => ?bit, decPattern_encPattern, fun c _ _ h => encPattern_injective c h,
    fun c q => validPattern_iff.trans masks_iff_exists_encPattern, fun c q q' hq => ?masks⟩
  case bit => rw [decPattern_bit c q hj, applyPolarity_bit c q (by omega)]
  case masks =>
    subst hq
    exact masks_iff_exists_encPattern

/-! ### The pattern as a number (R402) -/

/-- The sum of R402: each data bit `j` at bit `3 * j + 1`. -/
def dataBitsSum {w : Nat} (v : BitVec w) : Nat :=
  ((List.range w).map fun j => (v.getLsbD j).toNat * 2 ^ (3 * j + 1)).sum

/-- Bit `j` of the high part is data bit `m + j`, so its place is `3 * m` higher. -/
theorem dataBitsSum_append {n m : Nat} (x : BitVec n) (y : BitVec m) :
    dataBitsSum (x ++ y) = dataBitsSum x <<< (3 * m) + dataBitsSum y := by
  have hrange : List.range (n + m) = List.range m ++ (List.range n).map (m + ·) := by rw [Nat.add_comm, List.range_add]
  have hlow : ∀ j ∈ List.range m,
      ((x ++ y).getLsbD j).toNat * 2 ^ (3 * j + 1) = (y.getLsbD j).toNat * 2 ^ (3 * j + 1) := by
    intro j hj
    rw [BitVec.getLsbD_append, if_pos (List.mem_range.1 hj)]
  have hhigh (j : Nat) : ((x ++ y).getLsbD (m + j)).toNat * 2 ^ (3 * (m + j) + 1) =
      (x.getLsbD j).toNat * 2 ^ (3 * j + 1) * 2 ^ (3 * m) := by
    rw [BitVec.getLsbD_append, if_neg (by omega), Nat.add_sub_cancel_left]
    ring
  rw [dataBitsSum, hrange, List.map_append, List.sum_append, List.map_congr_left hlow, List.map_map, Nat.add_comm,
    Nat.shiftLeft_eq, dataBitsSum, dataBitsSum, ← List.sum_map_mul_right]
  simp only [Function.comp_def, hhigh]

theorem dataBitsSum_lt (n : BitVec 4) : dataBitsSum n < 2 ^ 12 := by
  revert n
  decide

theorem toNat_nibblePattern (n : BitVec 4) : (nibblePattern n).toNat = 0x924 ||| dataBitsSum n := by
  revert n
  decide

theorem shiftLeft_or_or (a b x y k : Nat) : (a ||| x) <<< k ||| (b ||| y) = (a <<< k ||| b) ||| (x <<< k ||| y) := by
  rw [Nat.shiftLeft_or_distrib]
  ac_rfl

theorem toNat_channelPattern (v : Byte) : (channelPattern v).toNat = 0x924924 ||| dataBitsSum v := by
  calc (channelPattern v).toNat
      = (0x924 ||| dataBitsSum (v.extractLsb' 4 4)) <<< 12 ||| (0x924 ||| dataBitsSum (v.extractLsb' 0 4)) := by
        rw [channelPattern, BitVec.toNat_append, toNat_nibblePattern, toNat_nibblePattern]
    _ = 0x924924 ||| (dataBitsSum (v.extractLsb' 4 4) <<< 12 ||| dataBitsSum (v.extractLsb' 0 4)) :=
        shiftLeft_or_or ..
    _ = 0x924924 ||| dataBitsSum (v.extractLsb' 4 4 ++ v.extractLsb' 0 4) := by
        rw [dataBitsSum_append, Nat.shiftLeft_add_eq_or_of_lt (dataBitsSum_lt _)]
    _ = 0x924924 ||| dataBitsSum v := by rw [BitVec.extractLsb'_append_extractLsb']

/-! ### The order of the patterns (95_test_vectors.md 2.1) -/

theorem nibblePattern_lt (m n : BitVec 4) (h : m < n) : nibblePattern m < nibblePattern n := by
  revert m n
  decide

/-- Of two words the high parts decide, and where these are equal the low ones. -/
theorem append_lt_append_iff {n m : Nat} {x x' : BitVec n} {y y' : BitVec m} :
    x ++ y < x' ++ y' ↔ x < x' ∨ x = x' ∧ y < y' := by
  have hy := y.isLt
  have hy' := y'.isLt
  have hstep {a b : Nat} (h : a < b) : a * 2 ^ m + 2 ^ m ≤ b * 2 ^ m := by
    rw [← Nat.succ_mul]
    exact Nat.mul_le_mul_right _ h
  rw [BitVec.lt_def, BitVec.lt_def, BitVec.lt_def, ← BitVec.toNat_inj, toNat_append_eq, toNat_append_eq]
  rcases Nat.lt_trichotomy x.toNat x'.toNat with hlt | heq | hgt
  · have := hstep hlt
    omega
  · rw [heq]
    omega
  · have := hstep hgt
    omega

theorem channelPattern_lt {v v' : Byte} (h : v < v') : channelPattern v < channelPattern v' := by
  rw [← BitVec.extractLsb'_append_extractLsb' (w := 4) (len := 4) (x := v),
    ← BitVec.extractLsb'_append_extractLsb' (w := 4) (len := 4) (x := v'), append_lt_append_iff] at h
  rw [channelPattern, channelPattern, append_lt_append_iff]
  exact h.imp (nibblePattern_lt _ _) fun ⟨hhigh, hlow⟩ => ⟨congrArg _ hhigh, nibblePattern_lt _ _ hlow⟩

/-- Settles O9: the nibbles' sums, the high one twelve places up, make the channel's; the patterns compare as the
nibbles do. -/
theorem channelPatternIsBasePlusDataBits : Obligations.ChannelPatternIsBasePlusDataBits :=
  ⟨fun _ => rfl, toNat_channelPattern, fun _ _ => channelPattern_lt⟩

/-! ### The three bytes (R405) -/

/-- The packing of 20_memory.md R204 by weights. -/
theorem toNat_eq_bytes (q : Pattern) : q.toNat =
    (q.extractLsb' 16 8).toNat * 65536 + (q.extractLsb' 8 8).toNat * 256 + (q.extractLsb' 0 8).toNat := by
  simp only [BitVec.extractLsb'_toNat, Nat.shiftRight_eq_div_pow]
  omega

/-- Settles O11: the polarity is ENC's own definition, and the bytes are the pattern's by weights. -/
theorem transmittedBytesOfAChannel : Obligations.TransmittedBytesOfAChannel :=
  ⟨fun _ _ => rfl, fun _ _ => ⟨_, _, _, rfl, toNat_eq_bytes _⟩⟩

/-! ### ENCODE_CHANNEL (R410) -/

/-- Settles O12: the encoding is format FV's word, and a ready host's command is its effect; the corner cases are
`P(0)`, `P(255)` and `P(0xA5)`, complemented where INVERT = 1. -/
theorem encodeChannelReturnsTheTransmittedPattern : Obligations.EncodeChannelReturnsTheTransmittedPattern := by
  refine ⟨fun v => ⟨opField_formatFV _ v, valField_formatFV _ v, formatFV_lt _ v⟩,
    fun v s hr => whenReady_of_ready hr _, fun c hi => ?upright, fun c hi => ?inverted⟩
  case upright =>
    simp only [bytes3, encPattern, applyPolarity_of_not_inverted hi]
    decide
  case inverted =>
    simp only [encPattern, applyPolarity_of_inverted hi]
    decide

end Sys2Proof.Machine

/-! PROOFS. The frame buffer (41_frame_buffer.md): brightness scaling, a pixel's nine bytes, the expansion, and the
commands SET_COLOR, GET_COLOR, SET_BRIGHTNESS and EXPAND_ALL. -/

namespace Sys2Proof.Machine

variable {s : State} {c : Config} {bp1 bp1' : BitVec 9} {col : Color} {u v v' w r g b : Byte} {x : PixelIdx}
  {i k : Nat}

/-! ### Scaling (R450, R461) -/

/-- The product of R450 is within sixteen bits, so its high byte is exact. -/
theorem scale_product_le (v : Byte) (h : bp1.toNat ≤ 256) : v.toNat * bp1.toNat ≤ 65280 :=
  Nat.mul_le_mul (Nat.le_of_lt_succ v.isLt) h

theorem toNat_scale (v : Byte) (h : bp1.toNat ≤ 256) : (scale v bp1).toNat = v.toNat * bp1.toNat / 256 := by
  have hlt : v.toNat * bp1.toNat / 256 < 2 ^ 8 := by
    have := scale_product_le v h
    omega
  rw [scale, Nat.shiftRight_eq_div_pow, BitVec.toNat_ofNat, Nat.mod_eq_of_lt hlt]

theorem toNat_brightnessPlusOne_le (b : Byte) : (brightnessPlusOne b).toNat ≤ 256 := by
  rw [toNat_brightnessPlusOne]
  exact b.isLt

theorem toNat_scale_brightnessPlusOne (v b : Byte) :
    (scale v (brightnessPlusOne b)).toNat = v.toNat * (b.toNat + 1) / 256 := by
  rw [toNat_scale v (toNat_brightnessPlusOne_le b), toNat_brightnessPlusOne]

/-- At `bp1 = 256` the shift undoes the product. -/
theorem scale_full (v : Byte) : scale v 256#9 = v := by
  apply BitVec.eq_of_toNat_eq
  rw [toNat_scale v (by decide)]
  exact Nat.mul_div_cancel v.toNat (by decide)

/-- At `bp1 = 1` every channel is below the shift (90_conflicts.md C1). -/
theorem scale_one (v : Byte) : scale v 1#9 = 0#8 := by
  apply BitVec.eq_of_toNat_eq
  rw [toNat_scale v (by decide)]
  exact Nat.div_eq_of_lt ((Nat.mul_one v.toNat).symm ▸ v.isLt)

/-- Settles O13: the product fits, so the result is its quotient by 256; the brightness adds one to `bp1`. -/
theorem brightnessScalingFormula : Obligations.BrightnessScalingFormula :=
  ⟨fun v _ h => ⟨scale_product_le v h, toNat_scale v h⟩, toNat_scale_brightnessPlusOne,
    fun v => ⟨scale_full v, scale_one v⟩⟩

theorem scale_le_scale (hv : v ≤ v') (hb : bp1 ≤ bp1') (h : bp1'.toNat ≤ 256) : scale v bp1 ≤ scale v' bp1' := by
  rw [BitVec.le_def] at hv hb ⊢
  rw [toNat_scale v (hb.trans h), toNat_scale v' h]
  exact Nat.div_le_div_right (Nat.mul_le_mul hv hb)

/-- `255 * (b + 1)` is `256 * b` and a remainder `255 - b`. -/
theorem scale_max (b : Byte) : scale 255#8 (brightnessPlusOne b) = b := by
  apply BitVec.eq_of_toNat_eq
  rw [toNat_scale_brightnessPlusOne, BitVec.toNat_ofNat]
  omega

/-- Settles O14: product and quotient are monotone; at channel 255 the quotient by 256 is the brightness. -/
theorem brightnessScalingIsMonotone : Obligations.BrightnessScalingIsMonotone :=
  ⟨fun _ _ _ _ => scale_le_scale, scale_max⟩

/-! ### The channel sent (R452, R454) and the pixel (R456) -/

theorem chanOut_of_cieDisabled (h : c.cieEnable = false) (bp1 : BitVec 9) (v : Byte) :
    chanOut c bp1 v = scale v bp1 :=
  if_neg (Bool.eq_false_iff.1 h)

theorem chanOut_of_cieEnabled (h : c.cieEnable = true) (bp1 : BitVec 9) (v : Byte) :
    chanOut c bp1 v = c.cieTable[(scale v bp1).toNat]'(scale v bp1).isLt :=
  if_pos h

/-- Settles O15: CIE_ENABLE decides between the table's entry and the scaled channel itself. -/
theorem channelSentIsScaledThenCorrected : Obligations.ChannelSentIsScaledThenCorrected :=
  ⟨fun _ _ => rfl, fun _ bp1 v h => chanOut_of_cieDisabled h bp1 v, fun _ bp1 v h => chanOut_of_cieEnabled h bp1 v⟩

theorem pixelBytes_of_slots (h : slots c.order col = [u, v, w]) (bp1 : BitVec 9) :
    pixelBytes c bp1 col = bytes3 c (chanOut c bp1 u) ++ bytes3 c (chanOut c bp1 v) ++ bytes3 c (chanOut c bp1 w) := by
  simp only [pixelBytes, h, List.flatMap_cons, List.flatMap_nil, List.append_nil, List.append_assoc]

theorem pixelBytes_grb (h : c.order = .grb) (bp1 : BitVec 9) (col : Color) : pixelBytes c bp1 col =
    bytes3 c (chanOut c bp1 col.green) ++ bytes3 c (chanOut c bp1 col.red) ++ bytes3 c (chanOut c bp1 col.blue) :=
  pixelBytes_of_slots (congrArg (slots · col) h) bp1

theorem pixelBytes_rgb (h : c.order = .rgb) (bp1 : BitVec 9) (col : Color) : pixelBytes c bp1 col =
    bytes3 c (chanOut c bp1 col.red) ++ bytes3 c (chanOut c bp1 col.green) ++ bytes3 c (chanOut c bp1 col.blue) :=
  pixelBytes_of_slots (congrArg (slots · col) h) bp1

/-- Settles O16: the pixel is its three slots' bytes in turn, and ORDER names the slots. -/
theorem pixelIsThreeChannelsInWireOrder : Obligations.PixelIsThreeChannelsInWireOrder := fun c bp1 col =>
  ⟨length_pixelBytes c bp1 col, fun h => pixelBytes_grb h bp1 col, fun h => pixelBytes_rgb h bp1 col⟩

/-! ### The expansion (R457, R459) -/

/-- Settles O18: the run of writes reads back inside `raw`, leaves the rest, writes `tx` alone and keeps its form. -/
theorem expansionWritesRawAndNothingElse : Obligations.ExpansionWritesRawAndNothingElse := fun _ h =>
  ⟨fun _ _ hi hm => txByte_expand_pixel h hi hm, fun _ hk => txByte_expand_rest hk, rfl, Memory.wf_writeRun h⟩

/-- A second expansion finds the latch region the first one found. -/
theorem expand_expand (h : Memory.wf s.cfg s.tx = true) : expand (expand s) = expand s :=
  expand_eq_of_latch_eq h (Memory.wf_writeRun h) fun _ hk => txByte_expand_rest hk

theorem exec_expandAll_of_ready (hr : s.hostReady) (hb : s.inFlight = false) : exec .expandAll s = .next (expand s) :=
  (whenReady_of_ready hr _).trans (if_neg (Bool.eq_false_iff.1 hb))

theorem exec_expandAll_of_busy (hr : s.hostReady) (hb : s.inFlight = true) :
    exec .expandAll s = .next { s with fault := .expandBusy } :=
  (whenReady_of_ready hr _).trans (if_pos hb)

theorem exec_expandAll_expand (hr : s.hostReady) (hb : s.inFlight = false) (h : Memory.wf s.cfg s.tx = true) :
    exec .expandAll (expand s) = .next (expand s) := by
  rw [exec_expandAll_of_ready (s := expand s) hr hb, expand_expand h]

theorem txByte_expand_raw_congr {s' : State} (h : Memory.wf s.cfg s.tx = true) (h' : Memory.wf s'.cfg s'.tx = true)
    (hc : s.cfg = s'.cfg) (hp : s.colors = s'.colors) (hbp : s.bp1 = s'.bp1) (hk : k < rawLength s.cfg) :
    (expand s).txByte k = (expand s').txByte k := by
  rw [txByte_expand_raw h hk, txByte_expand_raw h' (hc ▸ hk), frameData_congr hc hbp hp]

/-- Settles O19: EXPAND_ALL answers the expansion, which is idempotent; `raw` is then the frame's data. -/
theorem expandingTwiceIsExpandingOnce : Obligations.ExpandingTwiceIsExpandingOnce := by
  refine ⟨fun s t h hb ht => ?twice, fun s s' h h' hc hp hbp k hk => txByte_expand_raw_congr h h' hc hp hbp hk⟩
  case twice =>
    obtain ⟨hr, -⟩ := exec_next ht
    rw [exec_expandAll_of_ready hr hb] at ht
    cases ht
    exact exec_expandAll_expand hr hb h

/-- A full-brightness red pixel: `P(0)`, `P(255)` and `P(0)`. -/
theorem pixelBytes_red (ho : c.order = .grb) (hi : c.invert = false) (he : c.cieEnable = false) :
    pixelBytes c 256#9 ⟨255#8, 0#8, 0#8⟩ =
      [0x92#8, 0x49#8, 0x24#8, 0xDB#8, 0x6D#8, 0xB6#8, 0x92#8, 0x49#8, 0x24#8] := by
  simp only [pixelBytes_grb ho, chanOut_of_cieDisabled he, scale_full, bytes3, encPattern,
    applyPolarity_of_not_inverted hi]
  decide

/-- Settles O24: with nothing in flight the command answers the expansion, else the fault. -/
theorem expandAllRewritesRaw : Obligations.ExpandAllRewritesRaw := by
  refine ⟨rfl, fun s hr hb h => ⟨expand s, exec_expandAll_of_ready hr hb, rfl, ?_⟩, fun s => exec_expandAll_of_busy,
    fun c => pixelBytes_red⟩
  exact ⟨fun k => txByte_expand_raw h, fun k => txByte_expand_rest, exec_expandAll_expand hr hb h⟩

/-! ### SET_COLOR (R451) -/

theorem idxInRange_of_lt (h : x.toNat < c.n) : idxInRange c x = true := decide_eq_true h

theorem not_idxInRange_of_ge (h : c.n ≤ x.toNat) : ¬ idxInRange c x = true :=
  fun hx => Nat.not_lt.2 h (of_decide_eq_true hx)

/-- SET_COLOR's effect in range: the one pixel stored (R451). -/
def storeColor (k : Nat) (col : Color) (s : State) : State := { s with colors := s.colors.set k col }

theorem colorAt_storeColor_same (hk : k < s.colors.length) : (storeColor k col s).colorAt k = col := by
  simp [State.colorAt, storeColor, hk]

theorem colorAt_storeColor_other (h : i ≠ k) : (storeColor k col s).colorAt i = s.colorAt i := by
  simp [State.colorAt, storeColor, h.symm]

theorem storeColor_storeColor (k : Nat) (col : Color) (s : State) :
    storeColor k col (storeColor k col s) = storeColor k col s := by
  simp only [storeColor, List.set_set]

theorem exec_setColor_of_lt (hr : s.hostReady) (hx : x.toNat < s.cfg.n) :
    exec (.setColor x r g b) s = .next (storeColor x.toNat ⟨r, g, b⟩ s) :=
  (whenReady_of_ready hr _).trans (if_pos (idxInRange_of_lt hx))

theorem exec_setColor_of_ge (hr : s.hostReady) (hx : s.cfg.n ≤ x.toNat) : exec (.setColor x r g b) s = .next s :=
  (whenReady_of_ready hr _).trans (if_neg (not_idxInRange_of_ge hx))

/-- Settles O20: the format FC's fields; in range the one pixel is stored, and storing it again is storing it once; out
of range the state is kept. -/
theorem setColorStoresOnePixelOrDoesNothing : Obligations.SetColorStoresOnePixelOrDoesNothing := by
  refine ⟨fun x r g b => ?encoding, fun x r g b s hr hx hlen => ?inRange, fun x r g b s => exec_setColor_of_ge⟩
  case encoding =>
    exact ⟨opField_formatFC .., idxField_formatFC .., redField_formatFC .., greenField_formatFC ..,
      blueField_formatFC .., formatFC_lt ..⟩
  case inRange =>
    have hrepeat : exec (.setColor x r g b) (storeColor x.toNat ⟨r, g, b⟩ s) =
        .next (storeColor x.toNat ⟨r, g, b⟩ s) := by
      rw [exec_setColor_of_lt (s := storeColor x.toNat ⟨r, g, b⟩ s) hr hx, storeColor_storeColor]
    exact ⟨_, exec_setColor_of_lt hr hx, rfl, List.length_set.trans hlen, colorAt_storeColor_same (hlen ▸ hx),
      fun j => colorAt_storeColor_other, hrepeat⟩

/-! ### GET_COLOR (R453, R460) -/

theorem exec_getColor_of_lt (hr : s.hostReady) (hx : x.toNat < s.cfg.n) :
    exec (.getColor x) s = .next { s with result := packColor (s.colorAt x.toNat) } :=
  (whenReady_of_ready hr _).trans (if_pos (idxInRange_of_lt hx))

theorem exec_getColor_of_colorAt (hr : s.hostReady) (hx : x.toNat < s.cfg.n) (hcol : s.colorAt x.toNat = col) :
    exec (.getColor x) s = .next { s with result := packColor col } := by
  rw [exec_getColor_of_lt hr hx, hcol]

theorem exec_getColor_of_ge (hr : s.hostReady) (hx : s.cfg.n ≤ x.toNat) :
    exec (.getColor x) s = .next { s with fault := .readRange } :=
  (whenReady_of_ready hr _).trans (if_neg (not_idxInRange_of_ge hx))

theorem toNat_packColor (col : Color) :
    (packColor col).toNat = col.red.toNat * 65536 + col.green.toNat * 256 + col.blue.toNat := by
  rw [packColor, toNat_append_eq, toNat_append_eq]
  omega

/-- Settles O21: the format FI's fields, the two sides of the range check, and the packing by weights. -/
theorem getColorReturnsTheStoredColour : Obligations.GetColorReturnsTheStoredColour :=
  ⟨fun x => ⟨opField_formatFI _ x, idxField_formatFI _ x, formatFI_lt _ x⟩, fun _ _ => exec_getColor_of_lt,
    fun _ _ => exec_getColor_of_ge, toNat_packColor⟩

/-- Settles O22: SET_COLOR puts the colour where GET_COLOR reads it, and the expansion leaves `colors`. -/
theorem setColorThenGetColorRoundTrips : Obligations.SetColorThenGetColorRoundTrips := by
  refine ⟨fun x r g b s hr hlen hx => ?inRange, fun x r g b s hr hx => ⟨s, exec_setColor_of_ge hr hx, rfl⟩⟩
  case inRange =>
    have hcol : (storeColor x.toNat ⟨r, g, b⟩ s).colorAt x.toNat = ⟨r, g, b⟩ := colorAt_storeColor_same (hlen ▸ hx)
    refine ⟨storeColor x.toNat ⟨r, g, b⟩ s, exec_setColor_of_lt hr hx, ?atOnce, fun hb => ?afterExpansion⟩
    case atOnce => exact exec_getColor_of_colorAt hr hx hcol
    case afterExpansion => exact ⟨_, exec_expandAll_of_ready hr hb, exec_getColor_of_colorAt hr hx hcol⟩

/-! ### SET_BRIGHTNESS (R455) -/

/-- Settles O23: the format FV's fields; the brightness is stored plus one, so 255, 0 and 127 store 256, 1 and 128. -/
theorem setBrightnessStoresBrightnessPlusOne : Obligations.SetBrightnessStoresBrightnessPlusOne :=
  ⟨fun v => ⟨opField_formatFV _ v, valField_formatFV _ v, formatFV_lt _ v⟩,
    fun v _ hr => ⟨_, whenReady_of_ready hr _, rfl, toNat_brightnessPlusOne v⟩,
    fun x => ⟨scale_full x, scale_one x⟩, by decide⟩

end Sys2Proof.Machine

/-! PROOFS. The transfer engine (42_transfer_engine.md): its four commands, the three steps that are no commands, and
what one step can do to a transfer. -/

namespace Sys2Proof.Machine

open Sys2Proof.Claims

variable {s t : State} {i : Instr}

/-! ### The commands (R501, R502, R504 to R508) -/

theorem exec_writeNb_of_busy (hr : s.hostReady) (hb : s.inFlight = true) :
    exec .writeNb s = .next { s with fault := .writeBusy } :=
  (whenReady_of_ready hr _).trans (if_pos hb)

theorem exec_writeB_of_ready (hr : s.hostReady) (hb : s.inFlight = false) :
    exec .writeB s = .next (holdHost (issueTransfer s)) :=
  (whenReady_of_ready hr _).trans (if_neg (Bool.eq_false_iff.1 hb))

theorem exec_writeB_of_busy (hr : s.hostReady) (hb : s.inFlight = true) :
    exec .writeB s = .next { s with fault := .writeBusy } :=
  (whenReady_of_ready hr _).trans (if_pos hb)

theorem exec_waitComplete_of_done (hr : s.hostReady) (hd : s.done = true) : exec .waitComplete s = .next s :=
  (whenReady_of_ready hr _).trans (if_pos hd)

theorem exec_waitComplete_of_not_done (hr : s.hostReady) (hd : s.done = false) :
    exec .waitComplete s = .next (holdHost s) :=
  (whenReady_of_ready hr _).trans (if_neg (Bool.eq_false_iff.1 hd))

theorem exec_pollComplete_of_ready (hr : s.hostReady) :
    exec .pollComplete s = .next { s with result := doneWord s.done } :=
  whenReady_of_ready hr _

theorem txByte_issueTransfer (s : State) (k : Nat) : (issueTransfer s).txByte k = (expand s).txByte k :=
  txByte_congr rfl rfl k

theorem toNat_doneWord (d : Bool) : (doneWord d).toNat = d.toNat := by cases d <;> rfl

/-- Settles O25: with nothing in flight the command answers the issue, whose bytes are the expansion's. -/
theorem writeNbExpandsAndIssues : Obligations.WriteNbExpandsAndIssues := by
  refine ⟨rfl, fun s hr hb hwf => ⟨issueTransfer s, exec_writeNb_of_ready hr hb, rfl, fun k hk => ?raw,
    fun k hk => ?latch, fun hT => dmaEnabled_iff.2 ⟨hr.1, rfl, hT⟩, fun hc => ?host⟩,
    fun s => exec_writeNb_of_busy, fun c hL => ?noLatch⟩
  case raw => rw [txByte_issueTransfer, txByte_expand_raw hwf hk]
  case latch => rw [txByte_issueTransfer, txByte_expand_rest hk]
  case host =>
    obtain ⟨act, rest, hc⟩ := List.exists_cons_of_ne_nil hc
    exact hostEnabled_of_cmds (s := issueTransfer s) hr hc
  case noLatch => rw [txLength, hL, Nat.add_zero]

/-- Settles O26: the same issue, with the host held after it. -/
theorem writeBExpandsIssuesAndHoldsTheHost : Obligations.WriteBExpandsIssuesAndHoldsTheHost := by
  refine ⟨rfl, fun s hr hb hwf => ⟨holdHost (issueTransfer s), exec_writeB_of_ready hr hb, rfl, fun k hk => ?raw,
    fun k hk => ?latch⟩, fun s => exec_writeB_of_busy⟩
  case raw => exact (txByte_issueTransfer s k).trans (txByte_expand_raw hwf hk)
  case latch => exact (txByte_issueTransfer s k).trans (txByte_expand_rest hk)

/-- Settles O27: the issue clears `done`, so the wait that follows it holds the host. -/
theorem writeBIsWriteNbThenWaitComplete : Obligations.WriteBIsWriteNbThenWaitComplete := by
  refine ⟨fun s hr hb => ⟨issueTransfer s, exec_writeNb_of_ready hr hb, ?wait⟩, fun s hr hb => ?busy⟩
  case wait => rw [exec_waitComplete_of_not_done (s := issueTransfer s) hr rfl, exec_writeB_of_ready hr hb]
  case busy => rw [exec_writeNb_of_busy hr hb, exec_writeB_of_busy hr hb]

/-- Settles O28: the two sides of the command's test of `done`. -/
theorem waitCompleteHoldsTheHostUnlessDone : Obligations.WaitCompleteHoldsTheHostUnlessDone :=
  ⟨rfl, fun _ => exec_waitComplete_of_done, fun _ => exec_waitComplete_of_not_done⟩

/-- Settles O29: `result` alone is written, with `done` zero-extended. -/
theorem pollCompleteReadsDone : Obligations.PollCompleteReadsDone :=
  ⟨rfl, fun s hr => ⟨_, exec_pollComplete_of_ready hr, rfl, toNat_doneWord s.done⟩⟩

/-! ### The steps that are no commands (R510, R520, R530) -/

theorem hostEnabled_held_iff (hw : s.hwait = .waitDone) : hostEnabled s = true ↔ s.fault = .none ∧ s.done = true := by
  simp [hostEnabled, hw]

theorem hostEnabled_running_iff (hw : s.hwait = .run) : hostEnabled s = true ↔ s.fault = .none ∧ s.cmds ≠ [] := by
  simp [hostEnabled, hw]

theorem hostStep_of_held (hw : s.hwait = .waitDone) : hostStep s = .next (releaseHost s) := by
  simp only [hostStep, hw, hostResume]

/-- No hardware agent is enabled where nothing is in flight. -/
theorem hardwareAgent_of_not_inflight (hf : s.fsm ≠ .inflight) : hardwareAgent s = none := by
  simp [hardwareAgent, dmaEnabled, completionEnabled, hf]

/-- Where a transfer is in flight a hardware agent is enabled: the DMA before the last byte, then the completion. -/
theorem hardwareAgent_of_inflight (hf : s.fault = .none) (hfl : s.fsm = .inflight) (hle : s.dmaIdx ≤ txLength s.cfg) :
    ∃ a, hardwareAgent s = some a := by
  rcases hle.lt_or_eq with hlt | heq
  · exact ⟨.dma, by simp [hardwareAgent, dmaEnabled, hf, hfl, hlt]⟩
  · exact ⟨.completion, by simp [hardwareAgent, dmaEnabled, completionEnabled, hf, hfl, heq]⟩

/-- Settles O30: a held host's only step is the resume, enabled by `done`; with the engine idle no other agent is. -/
theorem hostResumesExactlyWhenDone : Obligations.HostResumesExactlyWhenDone := by
  refine fun s hw => ⟨hostEnabled_held_iff hw, hostStep_of_held hw, fun hf hd hidle => ?step⟩
  case step =>
    rw [step_of_host hf ((hostEnabled_held_iff hw).2 ⟨hf, hd⟩) (hardwareAgent_of_not_inflight (by simp [hidle]))]
    exact hostStep_of_held hw

/-- Settles O31: the enabling condition as written, and below T every address holds a byte. -/
theorem dmaBeatMovesOneByte : Obligations.DmaBeatMovesOneByte :=
  ⟨fun _ => dmaEnabled_iff, fun _ => dmaBeat_of_lt⟩

/-- Settles O32: the enabling condition as written; the event's three writes are its definition. -/
theorem completionEventEndsTheTransfer : Obligations.CompletionEventEndsTheTransfer :=
  ⟨fun _ => completionEnabled_iff, fun _ => rfl⟩

/-! ### One step of the transfer's state machine (R500, R533) -/

theorem inFlight_of_idle (h : s.Inv) (hidle : s.fsm = .idle) : s.inFlight = false := by
  rw [Bool.eq_false_iff, Ne, h.inFlightIff, hidle]
  nofun

theorem idle_of_not_inflight (h : s.Inv) (hf : s.fsm ≠ .inflight) : s.fsm = .idle := by
  cases hs : s.fsm with
  | idle => rfl
  | pending => exact absurd hs h.notPending
  | inflight => exact absurd hs hf

/-- A command leaves the transfer's state, or is a WRITE that issues one with nothing in flight. -/
theorem exec_leaves_or_issues (h : exec i s = .next t) :
    (t.fsm = s.fsm ∧ t.done = s.done ∧ t.inFlight = s.inFlight) ∨
    (s.inFlight = false ∧ t.fsm = .inflight ∧ t.done = false ∧ t.inFlight = true ∧ t.dmaIdx = 0 ∧
      (i = .writeNb ∨ i = .writeB)) := by
  cases commandWrites_of_exec h with
  | transfer _ w hi hb => exact .inr ⟨hb, rfl, rfl, rfl, rfl, hi⟩
  | _ => exact .inl ⟨rfl, rfl, rfl⟩

/-- Settles O33: of a step's cases the command may issue, the completion ends the transfer, and the rest leave it. -/
theorem transferStateMachineTransitions : Obligations.TransferStateMachineTransitions := by
  intro s t hinv h
  obtain ⟨-, sc, tu, ld, ⟨-, -, rfl⟩ | ⟨hw, w, rest, i, hc, hd, he⟩ | ⟨-, rest, -, rfl⟩ | ⟨-, -, b, -, rfl⟩ |
    ⟨hf, hT, rfl⟩⟩ := step_cases h
  case inr.inl =>
    obtain hleft | ⟨hb, hfsm, hdone, hfl, hidx, hi⟩ := exec_leaves_or_issues he
    · exact .inl hleft
    · have hidle : s.fsm = .idle := by
        refine idle_of_not_inflight hinv fun hf => ?_
        exact absurd (hinv.inFlightIff.2 hf) (Bool.eq_false_iff.1 hb)
      exact .inr (.inl ⟨hidle, hfsm, hdone, hfl, hidx, hw, w, rest, hc, by rcases hi with rfl | rfl <;> simp [hd]⟩)
  case inr.inr.inr.inr => exact .inr (.inr ⟨hf, rfl, hT, hinv.doneClear hf, rfl, rfl, rfl⟩)
  all_goals exact .inl ⟨rfl, rfl, rfl⟩

end Sys2Proof.Machine

/-! PROOFS. The frame law (42_transfer_engine.md R541): what a transfer has put on `wire`, in every interleaving. -/

namespace Sys2Proof.Machine

open Sys2Proof.Claims

variable {s t u : State} {rest : List HostAct} {i : Instr} {k : Nat}

/-- After an expansion the whole transmit buffer is FRAME: the data in `raw`, LATCH_BYTE above it. -/
theorem txByte_expand (h : s.Inv) (hk : k < txLength s.cfg) : (expand s).txByte k = (frame s)[k]? := by
  rw [frame]
  rcases Nat.lt_or_ge k (rawLength s.cfg) with hraw | hlatch
  · rw [txByte_expand_raw h.txWf hraw, List.getElem?_append_left (by rwa [length_frameData])]
  · have hL : k - rawLength s.cfg < latchCount s.cfg := by
      rw [txLength] at hk
      omega
    rw [txByte_expand_rest hlatch, h.latchKept k hlatch hk, List.getElem?_append_right (by rwa [length_frameData]),
      length_frameData, List.getElem?_replicate, if_pos hL]

/-- `u` is a state of the transfer that a WRITE in `s` issued: the transmit buffer is still the expansion, and what was
moved so far is that much of FRAME (20_memory.md R211 items a, b, d, e). -/
structure Sending (s u : State) : Prop where
  cfg : u.cfg = s.cfg
  inFlight : u.inFlight = true
  fsm : u.fsm = .inflight
  tx : u.tx = (expand s).tx
  wire : u.wire = s.wire ++ (frame s).take u.dmaIdx

theorem Sending.txByte (h : Sending s u) (hs : s.Inv) (hk : k < txLength s.cfg) : u.txByte k = (frame s)[k]? :=
  (txByte_congr (s := expand s) h.cfg h.tx k).trans (txByte_expand hs hk)

/-- Whatever the host issues, the transfer in flight is left alone (R533). -/
theorem Sending.exec (h : Sending s u) (he : exec i u = .next t) : Sending s t := by
  obtain ⟨htx, hidx, hwire, hfsm, hfl, -, hcfg⟩ := noCommandTouchesATransferInFlight i u t h.inFlight he
  exact ⟨hcfg.trans h.cfg, hfl, hfsm.trans h.fsm, htx.trans h.tx, by rw [hwire, hidx, h.wire]⟩

theorem Sending.beat (h : Sending s u) (hs : s.Inv) (hlt : u.dmaIdx < txLength u.cfg) {b : Byte}
    (hb : u.txByte u.dmaIdx = some b) : Sending s { u with wire := u.wire ++ [b], dmaIdx := u.dmaIdx + 1 } := by
  have hnext : (frame s)[u.dmaIdx]? = some b := (h.txByte hs (h.cfg ▸ hlt)).symm.trans hb
  have hwire : u.wire ++ [b] = s.wire ++ (frame s).take (u.dmaIdx + 1) := by
    rw [h.wire, List.take_add_one, hnext, List.append_assoc]
    rfl
  exact { h with wire := hwire }

theorem Sending.whole (h : Sending s u) (hT : u.dmaIdx = txLength u.cfg) : u.wire = s.wire ++ frame s := by
  rw [h.wire, hT, h.cfg, ← length_frame, List.take_length]

/-- A step within the transfer stays in it, or is the completion event, which finds the whole FRAME on `wire`. -/
theorem Sending.step (h : Sending s u) (hs : s.Inv) (ht : step u = .next t) :
    Sending s t ∨ t.fsm = .idle ∧ t.wire = s.wire ++ frame s := by
  obtain ⟨-, sc, tu, ld, ⟨-, -, rfl⟩ | ⟨-, w, rest, i, -, -, he⟩ | ⟨-, rest, -, rfl⟩ | ⟨-, hlt, b, hb, rfl⟩ |
    ⟨-, hT, rfl⟩⟩ := step_cases ht
  · exact .inl { h with }
  · have hu : Sending s { u with cmds := rest, sched := sc, turns := tu, lead := ld } := { h with }
    exact .inl (hu.exec he)
  · exact .inl { h with }
  · exact .inl { h.beat hs hlt hb with }
  · exact .inr ⟨rfl, h.whole hT⟩

/-- A run within the transfer, up to the first state that is not INFLIGHT. -/
theorem Sending.run (h : Sending s u) (hs : s.Inv) (hfl : ∀ j v, j < k → RunsTo j u v → v.fsm = .inflight)
    (ht : RunsTo k u t) : Sending s t ∨ t.fsm = .idle ∧ t.wire = s.wire ++ frame s := by
  induction k generalizing u with
  | zero => exact .inl (runsTo_zero.1 ht ▸ h)
  | succ k ih =>
    obtain ⟨v, hv, ht⟩ := runsTo_succ.1 ht
    obtain hsend | hidle := h.step hs hv
    · exact ih hsend (fun j x hj hx => hfl (j + 1) x (by omega) (runsTo_succ.2 ⟨v, hv, hx⟩)) ht
    · cases k with
      | zero => exact .inr (runsTo_zero.1 ht ▸ hidle)
      | succ k =>
        have hinflight := hfl 1 v (by omega) (runsTo_succ.2 ⟨v, hv, runsTo_zero.2 rfl⟩)
        exact absurd (hidle.1.symm.trans hinflight) nofun

theorem sending_issueTransfer (s : State) : Sending s (issueTransfer s) where
  cfg := rfl
  inFlight := rfl
  fsm := rfl
  tx := rfl
  wire := (List.append_nil _).symm

/-- From an idle state the step is the host's command: no hardware agent is enabled. -/
theorem step_of_idle (hr : IdleAndReady s) (hc : s.cmds = .issue (encode i) :: rest) :
    step s = exec i { s with cmds := rest } := by
  obtain ⟨hf, hidle, hw⟩ := hr
  rw [step_of_no_hardware ⟨hf, hw⟩ hc (hardwareAgent_of_not_inflight (by simp [hidle])),
    hostStep_of_decode hw hc (decode_encode i)]

/-- The first step of the law's runs is the issue. -/
theorem sending_of_step (hs : s.Inv) (hr : IdleAndReady s) (hi : i = .writeNb ∨ i = .writeB)
    (hc : s.cmds = .issue (encode i) :: rest) (ht : step s = .next t) : Sending s t := by
  obtain ⟨hf, hidle, hw⟩ := hr
  have hb : s.inFlight = false := inFlight_of_idle hs hidle
  have hissue : Sending s (issueTransfer { s with cmds := rest }) := { sending_issueTransfer s with }
  rw [step_of_idle ⟨hf, hidle, hw⟩ hc] at ht
  obtain rfl | rfl := hi
  · rw [exec_writeNb_of_ready (s := { s with cmds := rest }) ⟨hf, hw⟩ hb] at ht
    cases ht
    exact hissue
  · rw [exec_writeB_of_ready (s := { s with cmds := rest }) ⟨hf, hw⟩ hb] at ht
    cases ht
    exact { hissue with }

/-- From the WRITE in `s` up to the first state that is not INFLIGHT. -/
theorem sending_of_run (hs : s.Inv) (hr : IdleAndReady s) (hi : i = .writeNb ∨ i = .writeB)
    (hc : s.cmds = .issue (encode i) :: rest) (hk : 0 < k)
    (hfl : ∀ j v, 0 < j → j < k → RunsTo j s v → v.fsm = .inflight) (ht : RunsTo k s t) :
    Sending s t ∨ t.fsm = .idle ∧ t.wire = s.wire ++ frame s := by
  obtain ⟨k, rfl⟩ := Nat.exists_eq_succ_of_ne_zero hk.ne'
  obtain ⟨u, hu, ht⟩ := runsTo_succ.1 ht
  exact (sending_of_step hs hr hi hc hu).run hs
    (fun j v hj hv => hfl (j + 1) v (by omega) (by omega) (runsTo_succ.2 ⟨u, hu, hv⟩)) ht

/-- Settles O34: the run stays within the transfer until the completion event, which finds the whole FRAME sent. -/
theorem frameLawUnderEveryInterleaving : Obligations.FrameLawUnderEveryInterleaving := by
  intro s t i rest k hs hr hi hc hk hfl ht hidle
  obtain hsend | ⟨-, hwire⟩ := sending_of_run hs hr hi hc hk hfl ht
  · exact absurd (hsend.fsm.symm.trans hidle) nofun
  · exact hwire

/-- Settles O35: an INFLIGHT state of the run is within the transfer. -/
theorem wireHoldsAFramePrefixInFlight : Obligations.WireHoldsAFramePrefixInFlight := by
  intro s t i rest k hs hr hi hc hk hfl ht hinflight
  obtain hsend | ⟨hidle, -⟩ := sending_of_run hs hr hi hc hk hfl ht
  · exact ⟨hsend.wire, fun n hn => hsend.txByte hs hn⟩
  · exact absurd (hidle.symm.trans hinflight) nofun

end Sys2Proof.Machine

/-! PROOFS. When a step stops, and the one hang (42_transfer_engine.md R507, 60_exceptions.md R604). -/

namespace Sys2Proof.Machine

variable {s : State}

/-- Every command of a ready host answers a next state (60_exceptions.md R616). -/
theorem exists_exec_next (hr : s.hostReady) (i : Instr) : ∃ t, exec i s = .next t := by
  cases i with
  | encodeChannel v => exact ⟨_, whenReady_of_ready hr _⟩
  | setColor x r g b =>
    rcases Nat.lt_or_ge x.toNat s.cfg.n with hx | hx
    · exact ⟨_, exec_setColor_of_lt hr hx⟩
    · exact ⟨_, exec_setColor_of_ge hr hx⟩
  | getColor x =>
    rcases Nat.lt_or_ge x.toNat s.cfg.n with hx | hx
    · exact ⟨_, exec_getColor_of_lt hr hx⟩
    · exact ⟨_, exec_getColor_of_ge hr hx⟩
  | setBrightness v => exact ⟨_, whenReady_of_ready hr _⟩
  | expandAll =>
    cases hb : s.inFlight with
    | false => exact ⟨_, exec_expandAll_of_ready hr hb⟩
    | true => exact ⟨_, exec_expandAll_of_busy hr hb⟩
  | writeNb =>
    cases hb : s.inFlight with
    | false => exact ⟨_, exec_writeNb_of_ready hr hb⟩
    | true => exact ⟨_, exec_writeNb_of_busy hr hb⟩
  | writeB =>
    cases hb : s.inFlight with
    | false => exact ⟨_, exec_writeB_of_ready hr hb⟩
    | true => exact ⟨_, exec_writeB_of_busy hr hb⟩
  | waitComplete =>
    cases hd : s.done with
    | false => exact ⟨_, exec_waitComplete_of_not_done hr hd⟩
    | true => exact ⟨_, exec_waitComplete_of_done hr hd⟩
  | pollComplete => exact ⟨_, exec_pollComplete_of_ready hr⟩

/-- The host has a reserved word next, with the decoder's reason `why`. -/
def ReservedNext (s : State) (why : DecodeRefusal) : Prop :=
  s.hwait = .run ∧ ∃ w rest, s.cmds = .issue w :: rest ∧ decode w = .error why

/-- An enabled host goes on, or is refused a reserved word. -/
theorem hostStep_of_enabled (he : hostEnabled s = true) :
    (∃ t, hostStep s = .next t) ∨ ∃ why, ReservedNext s why ∧ hostStep s = .refused (.reservedWord why) := by
  cases hw : s.hwait with
  | waitDone => exact .inl ⟨_, hostStep_of_held hw⟩
  | run =>
    obtain ⟨hf, hne⟩ := (hostEnabled_running_iff hw).1 he
    obtain ⟨act, rest, hc⟩ := List.exists_cons_of_ne_nil hne
    cases act with
    | pollUntilDone => exact .inl ⟨_, (hostStep_of_poll hw hc).trans (pollRound_of_ready ⟨hf, hw⟩)⟩
    | issue w =>
      cases hd : decode w with
      | error why => exact .inr ⟨why, ⟨hw, w, rest, hc, hd⟩, hostStep_of_reserved hw hc hd⟩
      | ok i =>
        rw [hostStep_of_decode hw hc hd]
        exact .inl (exists_exec_next (s := { s with cmds := rest }) ⟨hf, hw⟩ i)

/-- Where the host has no step it is held with `done = 0`, which is the hang, or has nothing to do. -/
theorem nothingEnabled_cases (hf : s.fault = .none) (hh : hostEnabled s = false) :
    (s.hwait = .waitDone ∧ s.done = false ∧ nothingEnabled s = .fault .waitNeverEnds) ∨
    (s.hwait = .run ∧ s.cmds = [] ∧ nothingEnabled s = .refused .noCommand) := by
  rw [← Bool.not_eq_true] at hh
  cases hw : s.hwait with
  | waitDone =>
    rw [hostEnabled_held_iff hw] at hh
    exact .inl ⟨rfl, Bool.eq_false_iff.2 fun hd => hh ⟨hf, hd⟩, by rw [nothingEnabled, hw]⟩
  | run =>
    rw [hostEnabled_running_iff hw] at hh
    exact .inr ⟨rfl, not_not.1 fun hc => hh ⟨hf, hc⟩, by rw [nothingEnabled, hw]⟩

/-- What a step answers: a next state, the sticky fault, the hang, that the host has nothing to do, or the refusal of a
reserved word. -/
theorem step_outcome (s : State) :
    (∃ t, step s = .next t) ∨
    (s.fault ≠ .none ∧ step s = .fault (.stopped s.fault)) ∨
    (s.fault = .none ∧ s.hwait = .waitDone ∧ s.done = false ∧ hardwareAgent s = none ∧
      step s = .fault .waitNeverEnds) ∨
    (s.fault = .none ∧ s.hwait = .run ∧ s.cmds = [] ∧ hardwareAgent s = none ∧ step s = .refused .noCommand) ∨
    (s.fault = .none ∧ ∃ why, ReservedNext s why ∧ step s = .refused (.reservedWord why)) := by
  obtain hfault | ⟨hf, hh, ha, hs⟩ | ⟨hf, a, sc, tu, ld, he, hs⟩ := step_eq s
  · exact .inr (.inl hfault)
  · obtain ⟨hw, hd, hn⟩ | ⟨hw, hc, hn⟩ := nothingEnabled_cases hf hh
    · exact .inr (.inr (.inl ⟨hf, hw, hd, ha, hs.trans hn⟩))
    · exact .inr (.inr (.inr (.inl ⟨hf, hw, hc, ha, hs.trans hn⟩)))
  · cases a with
    | host =>
      obtain ⟨t, ht⟩ | ⟨why, hres, hrefused⟩ :=
        hostStep_of_enabled (s := { s with sched := sc, turns := tu, lead := ld }) he
      · exact .inl ⟨t, hs.trans ht⟩
      · exact .inr (.inr (.inr (.inr ⟨hf, why, hres, hs.trans hrefused⟩)))
    | dma =>
      obtain ⟨-, -, hlt⟩ := dmaEnabled_iff.1 he
      obtain ⟨b, -, hbeat⟩ := dmaBeat_of_lt (s := { s with sched := sc, turns := tu, lead := ld }) hlt
      exact .inl ⟨_, hs.trans hbeat⟩
    | completion => exact .inl ⟨_, hs⟩

theorem held_of_waitNeverEnds (h : step s = .fault .waitNeverEnds) :
    s.fault = .none ∧ s.hwait = .waitDone ∧ s.done = false ∧ hardwareAgent s = none := by
  obtain ⟨t, ht⟩ | ⟨-, ht⟩ | ⟨hf, hw, hd, ha, -⟩ | ⟨-, -, -, -, ht⟩ | ⟨-, why, -, ht⟩ := step_outcome s
  case inr.inr.inl => exact ⟨hf, hw, hd, ha⟩
  all_goals cases h.symm.trans ht

theorem idle_host_of_noCommand (h : step s = .refused .noCommand) :
    s.fault = .none ∧ s.hwait = .run ∧ s.cmds = [] ∧ hardwareAgent s = none := by
  obtain ⟨t, ht⟩ | ⟨-, ht⟩ | ⟨-, -, -, -, ht⟩ | ⟨hf, hw, hc, ha, -⟩ | ⟨-, why, -, ht⟩ := step_outcome s
  case inr.inr.inr.inl => exact ⟨hf, hw, hc, ha⟩
  all_goals cases h.symm.trans ht

/-- With the invariant the engine is idle wherever no hardware agent is enabled. -/
theorem idle_of_hardwareAgent_none (hs : s.Inv) (hf : s.fault = .none) (ha : hardwareAgent s = none) :
    s.fsm = .idle := by
  refine idle_of_not_inflight hs fun hfl => ?_
  obtain ⟨a, hsome⟩ := hardwareAgent_of_inflight hf hfl hs.dmaIdxLe
  rw [ha] at hsome
  cases hsome

theorem nothingEnabled_of_hang (hw : s.hwait = .waitDone) (hd : s.done = false) (hidle : s.fsm = .idle) (a : Agent) :
    agentEnabled a s = false := by
  cases a with
  | host => simp [agentEnabled, hostEnabled, hw, hd]
  | dma => simp [agentEnabled, dmaEnabled, hidle]
  | completion => simp [agentEnabled, completionEnabled, hidle]

/-- Settles O39: with the host held, `done = 0` and the engine idle no agent is enabled; the invariant says that such a
state has no byte on `wire` yet. -/
theorem theOneHangIsAWaitBeforeTheFirstWrite : Obligations.TheOneHangIsAWaitBeforeTheFirstWrite := by
  refine ⟨fun s hf hw hd hidle => ⟨?hang, nothingEnabled_of_hang hw hd hidle⟩, fun s hs h => ?onlyThere⟩
  case hang =>
    rw [step_of_nothing hf (nothingEnabled_of_hang hw hd hidle .host)
      (hardwareAgent_of_not_inflight (by simp [hidle])), nothingEnabled, hw]
  case onlyThere =>
    obtain ⟨hf, -, hd, ha⟩ := held_of_waitNeverEnds h
    have hidle := idle_of_hardwareAgent_none hs hf ha
    exact ⟨hidle, hd, (hs.idleFresh hidle hd).1⟩

end Sys2Proof.Machine

/-! PROOFS. A transfer to its end (42_transfer_engine.md R504, R510, R520, R530): the hardware's steps one after
another, and the blocking write. -/

namespace Sys2Proof.Machine

open Sys2Proof.Claims

variable {s t u : State} {rest : List HostAct} {a : Agent} {k m : Nat}

/-! ### The hardware's steps -/

/-- The state `m` beats later. -/
def sendBytes (m : Nat) (s : State) : State :=
  { s with
    wire := s.wire ++ (List.range' s.dmaIdx m).map fun k => (s.txByte k).getD 0#8
    dmaIdx := s.dmaIdx + m }

theorem sendBytes_zero (s : State) : sendBytes 0 s = s := by simp [sendBytes]

theorem sendBytes_sendBytes_one (m : Nat) (s : State) : sendBytes m (sendBytes 1 s) = sendBytes (m + 1) s := by
  have hwire : (sendBytes m (sendBytes 1 s)).wire = (sendBytes (m + 1) s).wire :=
    (List.append_assoc ..).trans (congrArg (s.wire ++ ·) (by rw [List.range'_succ]; rfl))
  have hidx : s.dmaIdx + 1 + m = s.dmaIdx + (m + 1) := by omega
  calc sendBytes m (sendBytes 1 s)
      = { s with wire := (sendBytes m (sendBytes 1 s)).wire, dmaIdx := s.dmaIdx + 1 + m } := rfl
    _ = sendBytes (m + 1) s := by rw [hwire, hidx]; rfl

theorem dmaBeat_eq_sendBytes (hlt : s.dmaIdx < txLength s.cfg) : dmaBeat s = .next (sendBytes 1 s) := by
  obtain ⟨b, hb, hbeat⟩ := dmaBeat_of_lt hlt
  rw [hbeat]
  simp [sendBytes, hb]

/-- What the enabled hardware agent does to a transfer in flight: a beat, or after the last one the completion event. -/
def transferStep (s : State) : State :=
  if s.dmaIdx < txLength s.cfg then sendBytes 1 s else markComplete s

theorem transferStep_of_lt (hlt : s.dmaIdx < txLength s.cfg) : transferStep s = sendBytes 1 s := if_pos hlt

theorem transferStep_of_eq (hT : s.dmaIdx = txLength s.cfg) : transferStep s = markComplete s :=
  if_neg hT.not_lt

theorem hostReady_transferStep (hr : s.hostReady) : (transferStep s).hostReady := by
  unfold transferStep
  split <;> exact hr

theorem transferStep_cmds (s : State) : (transferStep s).cmds = s.cmds := by
  unfold transferStep
  split <;> rfl

theorem agentStep_hardware (hn : a ≠ .host) (he : agentEnabled a s = true) :
    agentStep a s = .next (transferStep s) := by
  cases a with
  | host => exact absurd rfl hn
  | dma =>
    obtain ⟨-, -, hlt⟩ := dmaEnabled_iff.1 he
    rw [transferStep_of_lt hlt, ← dmaBeat_eq_sendBytes hlt, agentStep]
  | completion =>
    obtain ⟨-, -, hT⟩ := completionEnabled_iff.1 he
    rw [transferStep_of_eq hT, agentStep, completionEvent]

theorem inflight_of_hardware_enabled (hn : a ≠ .host) (he : agentEnabled a s = true) :
    s.fsm = .inflight ∧ s.dmaIdx ≤ txLength s.cfg := by
  cases a with
  | host => exact absurd rfl hn
  | dma =>
    obtain ⟨-, hfl, hlt⟩ := dmaEnabled_iff.1 he
    exact ⟨hfl, hlt.le⟩
  | completion =>
    obtain ⟨-, hfl, hT⟩ := completionEnabled_iff.1 he
    exact ⟨hfl, hT.le⟩

/-- `hardwareAgent` names an enabled agent that is not the host. -/
theorem enabled_of_hardwareAgent (ha : hardwareAgent s = some a) : a ≠ .host ∧ agentEnabled a s = true := by
  obtain ⟨rfl, he⟩ | ⟨rfl, he⟩ := hardwareAgent_dma_or_completion ha <;> exact ⟨nofun, he⟩

/-! ### The state after the transfer -/

theorem afterTransfer_eq (hle : s.dmaIdx ≤ txLength s.cfg) :
    markComplete (sendBytes (txLength s.cfg - s.dmaIdx) s) = afterTransfer s := by
  have hidx : s.dmaIdx + (txLength s.cfg - s.dmaIdx) = txLength s.cfg := Nat.add_sub_of_le hle
  simp only [markComplete, sendBytes, afterTransfer, hidx]

theorem afterTransfer_sendBytes_one (hlt : s.dmaIdx < txLength s.cfg) :
    afterTransfer (sendBytes 1 s) = afterTransfer s := by
  have hm : txLength s.cfg - (s.dmaIdx + 1) + 1 = txLength s.cfg - s.dmaIdx := by omega
  calc afterTransfer (sendBytes 1 s)
      = markComplete (sendBytes (txLength s.cfg - (s.dmaIdx + 1)) (sendBytes 1 s)) :=
        (afterTransfer_eq (s := sendBytes 1 s) hlt).symm
    _ = markComplete (sendBytes (txLength s.cfg - s.dmaIdx) s) := by rw [sendBytes_sendBytes_one, hm]
    _ = afterTransfer s := afterTransfer_eq hlt.le

/-- Every byte sent and the completion event taken: nothing is left to wait for. -/
theorem afterTransfer_of_complete (hd : s.done = true) (hfl : s.inFlight = false) (hidle : s.fsm = .idle)
    (hT : s.dmaIdx = txLength s.cfg) : afterTransfer s = s := by
  have hwire : (afterTransfer s).wire = s.wire := by simp [afterTransfer, hT]
  calc afterTransfer s
      = { s with
          wire := (afterTransfer s).wire, dmaIdx := txLength s.cfg
          done := true, inFlight := false, fsm := .idle } := rfl
    _ = s := by rw [hwire, ← hT, ← hd, ← hfl, ← hidle]

theorem afterTransfer_transferStep (hle : s.dmaIdx ≤ txLength s.cfg) :
    afterTransfer (transferStep s) = afterTransfer s := by
  rcases hle.lt_or_eq with hlt | hT
  · rw [transferStep_of_lt hlt, afterTransfer_sendBytes_one hlt]
  · have hcomplete : afterTransfer (markComplete s) = markComplete s := afterTransfer_of_complete rfl rfl rfl hT
    calc afterTransfer (transferStep s)
        = afterTransfer (markComplete s) := by rw [transferStep_of_eq hT]
      _ = markComplete (sendBytes 0 s) := by rw [hcomplete, sendBytes_zero]
      _ = afterTransfer s := by rw [← afterTransfer_eq hle, hT, Nat.sub_self]

/-! ### A held host (R504, R506, R510) -/

/-- While the host is held and `done = 0`, no schedule is asked: the hardware steps. -/
theorem step_of_held (hf : s.fault = .none) (hw : s.hwait = .waitDone) (hfl : s.fsm = .inflight)
    (hd : s.done = false) (hle : s.dmaIdx ≤ txLength s.cfg) : step s = .next (transferStep s) := by
  have hh : hostEnabled s = false := by simp [hostEnabled, hw, hd]
  obtain ⟨a, ha⟩ := hardwareAgent_of_inflight hf hfl hle
  obtain ⟨hn, he⟩ := enabled_of_hardwareAgent ha
  rw [step_of_hardware hf hh ha, agentStep_hardware hn he]

theorem runsTo_sendBytes_of_held (hf : s.fault = .none) (hw : s.hwait = .waitDone) (hfl : s.fsm = .inflight)
    (hd : s.done = false) (hm : s.dmaIdx + m ≤ txLength s.cfg) : RunsTo m s (sendBytes m s) := by
  induction m generalizing s with
  | zero => exact runsTo_zero.2 (sendBytes_zero s)
  | succ m ih =>
    have hlt : s.dmaIdx < txLength s.cfg := by omega
    have hbeat : step s = .next (sendBytes 1 s) := by
      rw [step_of_held hf hw hfl hd hlt.le, transferStep_of_lt hlt]
    have hrest : s.dmaIdx + 1 + m ≤ txLength s.cfg := by omega
    rw [← sendBytes_sendBytes_one]
    exact runsTo_succ.2 ⟨_, hbeat, ih hf hw hfl hd hrest⟩

/-- The beats that are left, the completion event, and the resume step. -/
theorem runsTo_release_of_held (hf : s.fault = .none) (hw : s.hwait = .waitDone) (hfl : s.fsm = .inflight)
    (hd : s.done = false) (hle : s.dmaIdx ≤ txLength s.cfg) :
    RunsTo (txLength s.cfg - s.dmaIdx + 2) s (releaseHost (afterTransfer s)) := by
  have hT : s.dmaIdx + (txLength s.cfg - s.dmaIdx) = txLength s.cfg := Nat.add_sub_of_le hle
  have hcomplete : step (sendBytes (txLength s.cfg - s.dmaIdx) s) = .next (afterTransfer s) := by
    rw [step_of_held (s := sendBytes _ s) hf hw hfl hd hT.le, transferStep_of_eq (s := sendBytes _ s) hT,
      afterTransfer_eq hle]
  have hresume : step (afterTransfer s) = .next (releaseHost (afterTransfer s)) := by
    obtain ⟨-, -, h⟩ := hostResumesExactlyWhenDone (afterTransfer s) hw
    exact h hf rfl rfl
  exact runsTo_add.2 ⟨_, runsTo_sendBytes_of_held hf hw hfl hd hT.le,
    runsTo_succ.2 ⟨_, hcomplete, runsTo_succ.2 ⟨_, hresume, runsTo_zero.2 rfl⟩⟩⟩

/-! ### The blocking write (R504) -/

theorem RunsTo.unique (ht : RunsTo k s t) (hu : RunsTo k s u) : t = u := Host.Outcome.next.inj (ht.symm.trans hu)

/-- What the transfer puts on `wire` from its first byte to its last is FRAME. -/
theorem Sending.map_txByte (h : Sending s u) (hs : s.Inv) :
    ((List.range' 0 (txLength s.cfg)).map fun k => (u.txByte k).getD 0#8) = frame s := by
  refine List.ext_getElem (by rw [List.length_map, List.length_range', length_frame]) fun k _ hk => ?_
  rw [List.getElem_map, List.getElem_range', Nat.zero_add, Nat.one_mul, h.txByte hs (length_frame s ▸ hk),
    List.getElem?_eq_getElem hk, Option.getD_some]

/-- The state after the issue of a WRITE_B: the transfer in flight from its first byte, the host held. -/
def writeBIssued (rest : List HostAct) (s : State) : State := holdHost (issueTransfer { s with cmds := rest })

theorem step_writeB (hs : s.Inv) (hr : IdleAndReady s) (hc : s.cmds = .issue (encode .writeB) :: rest) :
    step s = .next (writeBIssued rest s) := by
  obtain ⟨hf, hidle, hw⟩ := hr
  have hb : s.inFlight = false := inFlight_of_idle hs hidle
  rw [step_of_idle ⟨hf, hidle, hw⟩ hc]
  exact exec_writeB_of_ready (s := { s with cmds := rest }) ⟨hf, hw⟩ hb

theorem sending_writeBIssued (rest : List HostAct) (s : State) : Sending s (writeBIssued rest s) :=
  { sending_issueTransfer s with }

/-- The whole transfer of a WRITE_B, from its issue: the start state but for what the statement lists. -/
theorem release_writeBIssued (hs : s.Inv) (hr : IdleAndReady s) :
    releaseHost (afterTransfer (writeBIssued rest s)) =
      { s with
        cmds := rest, tx := (expand s).tx, wire := s.wire ++ frame s, dmaIdx := txLength s.cfg, done := true } := by
  obtain ⟨-, hidle, hw⟩ := hr
  have hwire : (afterTransfer (writeBIssued rest s)).wire = s.wire ++ frame s :=
    congrArg (s.wire ++ ·) ((sending_writeBIssued rest s).map_txByte hs)
  calc releaseHost (afterTransfer (writeBIssued rest s))
      = { s with
          cmds := rest, tx := (expand s).tx, wire := (afterTransfer (writeBIssued rest s)).wire
          dmaIdx := txLength s.cfg, done := true, fsm := .idle, inFlight := false, hwait := .run } := rfl
    _ = _ := by rw [hwire, ← hidle, ← hw, ← inFlight_of_idle hs hidle]

/-- Settles O36: the state after the issue has the host held, and the hardware's steps are the only ones up to the
completion event, whatever the schedule. -/
theorem writeBReturnsWithTheFrameOnTheWire : Obligations.WriteBReturnsWithTheFrameOnTheWire := by
  intro s rest hs hr hc
  have hissue := step_writeB hs hr hc
  have hle : 0 ≤ txLength s.cfg := Nat.zero_le _
  have ⟨hf, _⟩ := hr
  refine ⟨fun j u hj hjT hu => ?held, ?returned⟩
  case held =>
    obtain ⟨m, rfl⟩ := Nat.exists_eq_add_of_le' hj
    have hm : 0 + m ≤ txLength s.cfg := by omega
    have hbeats : RunsTo (m + 1) s (sendBytes m (writeBIssued rest s)) :=
      runsTo_succ.2 ⟨_, hissue, runsTo_sendBytes_of_held (s := writeBIssued rest s) hf rfl rfl rfl hm⟩
    obtain rfl := hu.unique hbeats
    exact ⟨rfl, Bool.and_false _, rfl⟩
  case returned =>
    rw [← release_writeBIssued hs hr]
    exact runsTo_succ.2 ⟨_, hissue, runsTo_release_of_held (s := writeBIssued rest s) hf rfl rfl rfl hle⟩

end Sys2Proof.Machine

/-! PROOFS. That runs, waits and poll loops end (42_transfer_engine.md R506 to R509, R521): a measure that every step
makes smaller once a WRITE was issued. -/

namespace Sys2Proof.Machine

open Sys2Proof.Claims

variable {s t u : State} {act : HostAct} {rest : List HostAct} {i : Instr} {a : Agent} {k : Nat}

/-- `s` with the model's own schedule fields moved on (log entry 8). -/
def State.reschedule (s : State) (sc : List Turn) (tu ld : Nat) : State :=
  { s with sched := sc, turns := tu, lead := ld }

/-! ### What is left to do -/

/-- How many steps other than a vain poll are left at most: what the transfer in flight and the resume still need, and
for each command of the host one step and a whole transfer with its wait. -/
def workLeft (s : State) : Nat :=
  s.cmds.length * (txLength s.cfg + 4) + (if s.fsm = .inflight then txLength s.cfg + 1 - s.dmaIdx else 0) +
    (if s.hwait = .waitDone then 1 else 0)

theorem workLeft_lt (s : State) : workLeft s < (s.cmds.length + 1) * (txLength s.cfg + 4) := by
  rw [Nat.succ_mul, workLeft]
  split_ifs <;> omega

theorem exec_cmds (h : exec i s = .next t) : t.cmds = s.cmds := by
  cases commandWrites_of_exec h <;> rfl

/-- The command taken off the list pays for whatever it begins. -/
theorem workLeft_exec (hc : s.cmds = act :: rest) (h : exec i { s with cmds := rest } = .next t) :
    workLeft t < workLeft s := by
  have hcmds : t.cmds = rest := exec_cmds h
  have hcfg : t.cfg = s.cfg := (exec_cfg h :)
  have hlt := workLeft_lt t
  rw [hcmds, hcfg] at hlt
  calc workLeft t
      < s.cmds.length * (txLength s.cfg + 4) := by rwa [hc]
    _ ≤ workLeft s := by
      rw [workLeft, Nat.add_assoc]
      exact Nat.le_add_right ..

/-- A beat leaves one byte fewer, the completion event no transfer. -/
theorem workLeft_transferStep (hfl : s.fsm = .inflight) (hle : s.dmaIdx ≤ txLength s.cfg) :
    workLeft (transferStep s) < workLeft s := by
  rcases hle.lt_or_eq with hlt | hT
  · rw [transferStep_of_lt hlt]
    simp only [workLeft, sendBytes, hfl, if_true]
    omega
  · simp [transferStep_of_eq hT, workLeft, hfl, hT]

theorem workLeft_hardware (hn : a ≠ .host) (he : agentEnabled a s = true) (h : agentStep a s = .next t) :
    workLeft t < workLeft s := by
  obtain ⟨hfl, hle⟩ := inflight_of_hardware_enabled hn he
  rw [agentStep_hardware hn he] at h
  cases h
  exact workLeft_transferStep hfl hle

/-- The host is in its poll loop and `done = 0`: a round of the loop changes nothing that the loop waits for. -/
def VainPoll (s : State) : Prop := s.hwait = .run ∧ s.done = false ∧ ∃ rest, s.cmds = .pollUntilDone :: rest

/-- A host's step leaves less to do, but for a poll that reads 0. -/
theorem workLeft_hostStep (h : hostStep s = .next t) : workLeft t < workLeft s ∨
    VainPoll s ∧ workLeft t = workLeft s := by
  obtain ⟨hw, rfl⟩ | ⟨-, w, rest, i, hc, -, he⟩ | ⟨hw, rest, hc, rfl⟩ := hostStep_next h
  · refine .inl ?_
    rw [workLeft, workLeft, hw]
    exact Nat.lt_succ_self _
  · exact .inl (workLeft_exec hc he)
  · cases hd : s.done with
    | false => exact .inr ⟨⟨hw, hd, rest, hc⟩, rfl⟩
    | true =>
      refine .inl ?_
      simp only [workLeft, hc, List.length_cons, Nat.succ_mul, if_true]
      omega

/-- Every step leaves less to do, but for a poll that reads 0. -/
theorem workLeft_step (h : step s = .next t) : workLeft t < workLeft s ∨
    VainPoll s ∧ workLeft t = workLeft s := by
  obtain ⟨-, a, sc, tu, ld, he, ha⟩ := step_next h
  by_cases hn : a = .host
  · subst hn
    exact (workLeft_hostStep ha :)
  · exact .inl (workLeft_hardware (s := s.reschedule sc tu ld) hn he ha)

theorem cmds_suffix_of_step (h : step s = .next t) : t.cmds <:+ s.cmds := by
  obtain ⟨-, sc, tu, ld, ⟨-, -, rfl⟩ | ⟨-, w, rest, i, hc, -, he⟩ | ⟨-, rest, hc, rfl⟩ | ⟨-, -, b, -, rfl⟩ |
    ⟨-, -, rfl⟩⟩ := step_cases h
  case inr.inl =>
    have hcmds : t.cmds = rest := exec_cmds he
    exact hcmds ▸ hc ▸ List.suffix_cons ..
  case inr.inr.inl =>
    cases s.done with
    | false => exact List.suffix_rfl
    | true => exact hc ▸ List.suffix_cons ..
  all_goals exact List.suffix_rfl

/-- A run without poll loops is no longer than what is left to do. -/
theorem length_le_workLeft (hp : .pollUntilDone ∉ s.cmds) (h : RunsTo k s t) : k ≤ workLeft s := by
  induction k generalizing s with
  | zero => exact Nat.zero_le _
  | succ k ih =>
    obtain ⟨u, hu, h⟩ := runsTo_succ.1 h
    obtain hlt | ⟨⟨-, -, rest, hc⟩, -⟩ := workLeft_step hu
    · have hle := ih (fun hmem => hp ((cmds_suffix_of_step hu).subset hmem)) h
      omega
    · exact absurd (hc ▸ List.mem_cons_self) hp

/-! ### Once a WRITE was issued (R521) -/

/-- A WRITE was issued: its transfer is in flight or complete. -/
def AfterWrite (s : State) : Prop := s.fsm = .inflight ∨ s.done = true

theorem afterWrite_step (hs : s.Inv) (ha : AfterWrite s) (h : step s = .next t) : AfterWrite t := by
  obtain ⟨hfsm, hdone, -⟩ | ⟨-, hfl, -⟩ | ⟨-, -, -, -, hd, -⟩ := transferStateMachineTransitions s t hs h
  · rw [AfterWrite, hfsm, hdone]
    exact ha
  · exact .inl hfl
  · exact .inr hd

/-- A poll that is chosen before the hardware uses up the schedule's patience. -/
theorem patience_lt_of_poll (hr : s.hostReady) (hc : s.cmds = .pollUntilDone :: rest) (ha : hardwareAgent s = some a)
    (h : step s = .next t) (hw : workLeft t = workLeft s) : patience t < patience s := by
  have hpatience := patience_lt_of_takeTurn_host (s := s)
  obtain ⟨sc, tu, ld, hu⟩ := takeTurn_snd s
  rw [step_of_choice hr.1 (hostEnabled_of_cmds hr hc) ha] at h
  generalize takeTurn s = p at hpatience hu h
  obtain ⟨turn, v⟩ := p
  cases hu
  cases turn with
  | host =>
    have hpoll := (hostStep_of_poll (s := s.reschedule sc tu ld) hr.2 hc).symm.trans h
    obtain ⟨-, rfl⟩ := pollRound_next hpoll
    exact hpatience rfl
  | hardware =>
    obtain ⟨hn, he⟩ := enabled_of_hardwareAgent ha
    have hlt := workLeft_hardware (s := s.reschedule sc tu ld) hn he h
    exact absurd hw hlt.ne

/-- What every step makes smaller once a WRITE was issued: the work left, then the patience of the schedule. -/
def rank (s : State) : Nat ×ₗ Nat := toLex (workLeft s, patience s)

theorem rank_step_lt (hs : s.Inv) (ha : AfterWrite s) (h : step s = .next t) : rank t < rank s := by
  obtain ⟨hf, -⟩ := step_next h
  refine Prod.Lex.toLex_lt_toLex.2 ?_
  obtain hlt | ⟨⟨hw, hd, rest, hc⟩, heq⟩ := workLeft_step h
  · exact .inl hlt
  · have hfl : s.fsm = .inflight := ha.resolve_right (by simp [hd])
    obtain ⟨a, hsome⟩ := hardwareAgent_of_inflight hf hfl hs.dmaIdxLe
    exact .inr ⟨heq, patience_lt_of_poll ⟨hf, hw⟩ hc hsome h heq⟩

/-- What holds of a state after a WRITE whenever it holds of the next one holds of every such state: no run from one
goes on for ever. -/
theorem afterWrite_induction {P : (s : State) → s.Inv → AfterWrite s → Prop}
    (next : ∀ s (hs : s.Inv) (ha : AfterWrite s),
      (∀ t (h : step s = .next t), P t (everyStepKeepsTheInvariant s t hs h) (afterWrite_step hs ha h)) → P s hs ha)
    (s : State) (hs : s.Inv) (ha : AfterWrite s) : P s hs ha := by
  induction s using (InvImage.wf rank wellFounded_lt).induction with
  | h s ih => exact next s hs ha fun t h => ih t (rank_step_lt hs ha h) _ _

/-- Why a run after a WRITE stops: a fault, a reserved word, or a host with nothing to do after a complete transfer. -/
def StopsAfterWrite (t : State) : Prop :=
  t.fault ≠ .none ∨ (∃ why, step t = .refused (.reservedWord why)) ∨ step t = .refused .noCommand ∧ t.done = true

theorem afterWrite_stops (hs : s.Inv) (ha : AfterWrite s) : ∃ k t, RunsTo k s t ∧ StopsAfterWrite t := by
  induction s, hs, ha using afterWrite_induction with
  | next s hs ha ih =>
  have hdone : s.fault = .none → hardwareAgent s = none → s.done = true := fun hf hn =>
    ha.resolve_left (by simp [idle_of_hardwareAgent_none hs hf hn])
  obtain ⟨t, ht⟩ | ⟨hf, -⟩ | ⟨hf, -, hd, hn, -⟩ | ⟨hf, -, -, hn, hend⟩ | ⟨-, why, -, hres⟩ := step_outcome s
  · obtain ⟨k, u, hrun, hstop⟩ := ih t ht
    exact ⟨k + 1, u, runsTo_succ.2 ⟨t, ht, hrun⟩, hstop⟩
  · exact ⟨0, s, runsTo_zero.2 rfl, .inl hf⟩
  · exact absurd (hdone hf hn) (by simp [hd])
  · exact ⟨0, s, runsTo_zero.2 rfl, .inr (.inr ⟨hend, hdone hf hn⟩)⟩
  · exact ⟨0, s, runsTo_zero.2 rfl, .inr (.inl ⟨why, hres⟩)⟩

/-- Settles O38: without poll loops a run is no longer than the work left, after a WRITE the rank goes down, and a host
with nothing to do has an idle engine by the invariant. -/
theorem runsWithoutPollLoopsAndRunsAfterAWriteEnd : Obligations.RunsWithoutPollLoopsAndRunsAfterAWriteEnd := by
  refine ⟨fun s t hp h => ?bound, fun s => afterWrite_stops, fun s hs h => ?noTransfer⟩
  case bound => exact absurd (length_le_workLeft hp h) (Nat.not_le.2 (workLeft_lt s))
  case noTransfer =>
    obtain ⟨hf, hw, hc, ha⟩ := idle_host_of_noCommand h
    have hidle := idle_of_hardwareAgent_none hs hf ha
    exact ⟨hidle, inFlight_of_idle hs hidle, hf, hw, hc⟩

/-! ### Waits and poll loops (R506, R507, R509) -/

/-- A run leads from `s` to `u`, but for the model's own schedule fields. -/
def EndsIn (s u : State) : Prop := ∃ k sc tu ld, RunsTo k s (u.reschedule sc tu ld)

theorem EndsIn.of_step (h : step s = .next t) (ht : EndsIn t u) : EndsIn s u := by
  obtain ⟨k, sc, tu, ld, hrun⟩ := ht
  exact ⟨k + 1, sc, tu, ld, runsTo_succ.2 ⟨t, h, hrun⟩⟩

/-- With a command left a ready host has its turn, or the transfer in flight goes on. -/
theorem step_of_ready (hr : s.hostReady) (hc : s.cmds = act :: rest) : ∃ sc tu ld,
    step s = hostStep (s.reschedule sc tu ld) ∨
    s.dmaIdx ≤ txLength s.cfg ∧ step s = .next (transferStep (s.reschedule sc tu ld)) := by
  have hh := hostEnabled_of_cmds hr hc
  obtain ⟨hf, -⟩ | ⟨-, hn, -⟩ | ⟨-, a, sc, tu, ld, he, hs⟩ := step_eq s
  · exact absurd hr.1 hf
  · rw [hh] at hn
    cases hn
  · refine ⟨sc, tu, ld, ?_⟩
    by_cases hn : a = .host
    · subst hn
      exact .inl hs
    · obtain ⟨-, hle⟩ := inflight_of_hardware_enabled hn he
      exact .inr ⟨hle, hs.trans (agentStep_hardware (s := s.reschedule sc tu ld) hn he)⟩

/-- Where the last transfer is complete there is nothing to wait for. -/
theorem afterTransfer_of_done (hs : s.Inv) (hd : s.done = true) : afterTransfer s = s := by
  have hidle : s.fsm = .idle := by
    refine idle_of_not_inflight hs fun hfl => ?_
    rw [hs.doneClear hfl] at hd
    cases hd
  exact afterTransfer_of_complete hd (inFlight_of_idle hs hidle) hidle (hs.doneAll hd)

theorem release_afterTransfer_holdHost (hw : s.hwait = .run) :
    releaseHost (afterTransfer (holdHost s)) = afterTransfer s := by
  calc releaseHost (afterTransfer (holdHost s))
      = { afterTransfer s with hwait := .run } := rfl
    _ = afterTransfer s := by rw [← hw]; rfl

theorem endsIn_of_wait (hs : s.Inv) (ha : AfterWrite s) (hr : s.hostReady)
    (hc : s.cmds = .issue (encode .waitComplete) :: rest) : EndsIn s { afterTransfer s with cmds := rest } := by
  induction s, hs, ha using afterWrite_induction with
  | next s hs ha ih =>
  have ⟨hf, hw⟩ := hr
  obtain ⟨sc, tu, ld, hstep | ⟨hle, hstep⟩⟩ := step_of_ready hr hc
  · rw [hostStep_of_decode (s := s.reschedule sc tu ld) hw hc (decode_encode _)] at hstep
    cases hd : s.done with
    | true =>
      rw [afterTransfer_of_done hs hd]
      rw [exec_waitComplete_of_done (s := { s.reschedule sc tu ld with cmds := rest }) hr hd] at hstep
      exact .of_step hstep ⟨0, sc, tu, ld, runsTo_zero.2 rfl⟩
    | false =>
      have hfl : s.fsm = .inflight := ha.resolve_right (by simp [hd])
      rw [exec_waitComplete_of_not_done (s := { s.reschedule sc tu ld with cmds := rest }) hr hd]
        at hstep
      have hrelease := runsTo_release_of_held
        (s := holdHost { s.reschedule sc tu ld with cmds := rest }) hf rfl hfl hd hs.dmaIdxLe
      rw [release_afterTransfer_holdHost (s := { s.reschedule sc tu ld with cmds := rest }) hw] at hrelease
      exact .of_step hstep ⟨_, sc, tu, ld, hrelease⟩
  · have hrest := ih _ hstep (hostReady_transferStep hr) ((transferStep_cmds _).trans hc)
    rw [afterTransfer_transferStep (s := s.reschedule sc tu ld) hle] at hrest
    exact .of_step hstep hrest

theorem hostStep_of_vain_poll (hr : s.hostReady) (hc : s.cmds = .pollUntilDone :: rest) (hd : s.done = false) :
    hostStep s = .next { s with result := 0#24 } := by
  rw [hostStep_of_poll hr.2 hc, pollRound_of_ready hr, hd]
  rfl

theorem hostStep_of_last_poll (hr : s.hostReady) (hc : s.cmds = .pollUntilDone :: rest) (hd : s.done = true) :
    hostStep s = .next { s with result := 1#24, cmds := rest } := by
  rw [hostStep_of_poll hr.2 hc, pollRound_of_ready hr, hd]
  rfl

theorem endsIn_of_poll (hs : s.Inv) (ha : AfterWrite s) (hr : s.hostReady) (hc : s.cmds = .pollUntilDone :: rest) :
    EndsIn s { afterTransfer s with cmds := rest, result := 1#24 } := by
  induction s, hs, ha using afterWrite_induction with
  | next s hs ha ih =>
  obtain ⟨sc, tu, ld, hstep | ⟨hle, hstep⟩⟩ := step_of_ready hr hc
  · cases hd : s.done with
    | true =>
      rw [hostStep_of_last_poll (s := s.reschedule sc tu ld) hr hc hd] at hstep
      rw [afterTransfer_of_done hs hd]
      exact .of_step hstep ⟨0, sc, tu, ld, runsTo_zero.2 rfl⟩
    | false =>
      rw [hostStep_of_vain_poll (s := s.reschedule sc tu ld) hr hc hd] at hstep
      exact .of_step hstep (ih _ hstep hr hc :)
  · have hrest := ih _ hstep (hostReady_transferStep hr) ((transferStep_cmds _).trans hc)
    rw [afterTransfer_transferStep (s := s.reschedule sc tu ld) hle] at hrest
    exact .of_step hstep hrest

/-- Settles O37: a held host is released by the transfer's own steps; a wait or a poll loop has its turn, or the
transfer goes on, and the rank goes down. -/
theorem waitsAndPollLoopsForATransferEnd : Obligations.WaitsAndPollLoopsForATransferEnd := by
  refine ⟨fun s hs hf hw hfl => ?held, fun s rest hs hr ha => ⟨endsIn_of_wait hs ha hr, endsIn_of_poll hs ha hr⟩⟩
  case held =>
    exact ⟨releaseHost (afterTransfer s), runsTo_release_of_held hf hw hfl (hs.doneClear hfl) hs.dmaIdxLe,
      rfl, rfl, rfl, rfl, rfl⟩

end Sys2Proof.Machine

/-! PROOFS. Either value for the poll after WRITE_NB (42_transfer_engine.md R503, 60_exceptions.md R613). -/

namespace Sys2Proof.Machine

open Sys2Proof.Claims

variable {s : State} {act : HostAct} {rest : List HostAct} {sc : List Turn}

theorem step_of_hardware_scheduled (hr : s.hostReady) (hc : s.cmds = act :: rest) (hfl : s.fsm = .inflight)
    (hle : s.dmaIdx ≤ txLength s.cfg) (hs : s.sched = .hardware :: sc) :
    step s = .next (transferStep { s with sched := sc }) := by
  obtain ⟨a, ha⟩ := hardwareAgent_of_inflight hr.1 hfl hle
  obtain ⟨hn, he⟩ := enabled_of_hardwareAgent ha
  rw [step_of_choice hr.1 (hostEnabled_of_cmds hr hc) ha, takeTurn, hs]
  exact agentStep_hardware (s := { s with sched := sc }) hn he

/-- Some schedule lets the hardware finish the transfer before the host's next step. -/
theorem exists_schedule_afterTransfer (hr : s.hostReady) (hc : s.cmds = act :: rest) (hfl : s.fsm = .inflight)
    (hle : s.dmaIdx ≤ txLength s.cfg) :
    ∃ sc k, RunsTo k { s with sched := sc } { afterTransfer s with sched := [] } := by
  induction hm : txLength s.cfg - s.dmaIdx generalizing s with
  | zero =>
    have hT : s.dmaIdx = txLength s.cfg := by omega
    have hcomplete := step_of_hardware_scheduled (s := { s with sched := [.hardware] }) hr hc hfl hle rfl
    rw [transferStep_of_eq (s := { s with sched := [] }) hT] at hcomplete
    have hafter : markComplete s = afterTransfer s := by rw [← afterTransfer_eq hle, hm, sendBytes_zero]
    refine ⟨[.hardware], 1, runsTo_succ.2 ⟨_, hcomplete, runsTo_zero.2 ?_⟩⟩
    rw [← hafter]
    rfl
  | succ m ih =>
    have hlt : s.dmaIdx < txLength s.cfg := by omega
    have hm' : txLength s.cfg - (s.dmaIdx + 1) = m := by omega
    obtain ⟨sc, k, hrun⟩ := ih (s := sendBytes 1 s) hr hc hfl hlt hm'
    have hbeat := step_of_hardware_scheduled (s := { s with sched := .hardware :: sc }) hr hc hfl hle rfl
    rw [transferStep_of_lt (s := { s with sched := sc }) hlt] at hbeat
    rw [afterTransfer_sendBytes_one hlt] at hrun
    exact ⟨.hardware :: sc, k + 1, runsTo_succ.2 ⟨_, hbeat, hrun⟩⟩

/-- From `s` under some schedule the host's commands end with `r` in `result`. -/
def MayRead (s : State) (r : Pattern) : Prop :=
  ∃ sc k t, RunsTo k { s with sched := sc } t ∧ t.cmds = [] ∧ t.result = r

theorem hostStep_of_issued_poll (hr : s.hostReady) (hc : s.cmds = .issue (encode .pollComplete) :: rest) :
    hostStep s = .next { s with cmds := rest, result := doneWord s.done } := by
  rw [hostStep_of_decode hr.2 hc (decode_encode _)]
  exact exec_pollComplete_of_ready (s := { s with cmds := rest }) hr

/-- The host goes first, and reads the `done` of a transfer in flight. -/
theorem mayRead_zero (hr : s.hostReady) (hc : s.cmds = [.issue (encode .pollComplete)]) (hfl : s.fsm = .inflight)
    (hd : s.done = false) (hle : s.dmaIdx ≤ txLength s.cfg) : MayRead s 0#24 := by
  obtain ⟨a, ha⟩ := hardwareAgent_of_inflight hr.1 hfl hle
  have hpoll := step_of_host_scheduled (s := { s with sched := [.host] }) hr hc ha rfl
  rw [hostStep_of_issued_poll (s := { s with sched := [] }) hr hc] at hpoll
  exact ⟨[.host], 1, _, runsTo_succ.2 ⟨_, hpoll, runsTo_zero.2 rfl⟩, rfl, congrArg doneWord hd⟩

/-- The hardware goes first until the transfer is complete, and the host reads the `done` it set. -/
theorem mayRead_one (hr : s.hostReady) (hc : s.cmds = [.issue (encode .pollComplete)]) (hfl : s.fsm = .inflight)
    (hle : s.dmaIdx ≤ txLength s.cfg) : MayRead s 1#24 := by
  obtain ⟨sc, k, hrun⟩ := exists_schedule_afterTransfer hr hc hfl hle
  have hpoll := step_of_no_hardware (s := { afterTransfer s with sched := [] }) hr hc
    (hardwareAgent_of_not_inflight nofun)
  rw [hostStep_of_issued_poll (s := { afterTransfer s with sched := [] }) hr hc] at hpoll
  exact ⟨sc, k + 1, _, runsTo_add.2 ⟨_, hrun, runsTo_succ.2 ⟨_, hpoll, runsTo_zero.2 rfl⟩⟩, rfl, rfl⟩

/-- The issue takes no choice, so the schedule is that of the state after it. -/
theorem MayRead.of_writeNb {r : Pattern} (hs : s.Inv) (hr : IdleAndReady s)
    (hc : s.cmds = .issue (encode .writeNb) :: rest) (h : MayRead (issueTransfer { s with cmds := rest }) r) :
    MayRead s r := by
  obtain ⟨sc, k, t, hrun, ht⟩ := h
  have hr' : IdleAndReady { s with sched := sc } := hr
  obtain ⟨hf, hidle, hw⟩ := hr
  have hb : s.inFlight = false := inFlight_of_idle hs hidle
  have hissue := step_of_idle hr' hc
  rw [exec_writeNb_of_ready (s := { s with sched := sc, cmds := rest }) ⟨hf, hw⟩ hb] at hissue
  exact ⟨sc, k + 1, t, runsTo_succ.2 ⟨_, hissue, hrun⟩, ht⟩

/-- Settles O48: the issue clears `done`; the host may then go first, or the hardware until the transfer is complete. -/
theorem pollAfterWriteNbMaySeeEitherValue : Obligations.PollAfterWriteNbMaySeeEitherValue := by
  intro s hs hr hc
  have ⟨hf, _, hw⟩ := hr
  have hready : (issueTransfer { s with cmds := [.issue (encode .pollComplete)] }).hostReady := ⟨hf, hw⟩
  exact ⟨(mayRead_zero hready rfl rfl rfl (Nat.zero_le _)).of_writeNb hs hr hc,
    (mayRead_one hready rfl rfl (Nat.zero_le _)).of_writeNb hs hr hc⟩

end Sys2Proof.Machine

/-! PROOFS. Faults, what stops a step, the choice of the next agent, and several engines (60_exceptions.md). -/

namespace Sys2Proof.Machine

variable {s t : State} {i : Instr} {a : Agent}

/-! ### The fault table (R600, R615, R616) -/

/-- What a command does to `fault`: it leaves it, or the command's row of the table applies and the code is all that is
written. -/
theorem exec_keeps_fault_or_raises (h : exec i s = .next t) :
    t.fault = s.fault ∨
    ((i = .writeNb ∨ i = .writeB) ∧ s.inFlight = true ∧ t = { s with fault := .writeBusy }) ∨
    (i = .expandAll ∧ s.inFlight = true ∧ t = { s with fault := .expandBusy }) ∨
    ∃ x, i = .getColor x ∧ s.cfg.n ≤ x.toNat ∧ t = { s with fault := .readRange } := by
  obtain ⟨-, hc⟩ := exec_next h
  cases i with
  | encodeChannel v => cases hc; exact .inl rfl
  | setColor x r g b => obtain ⟨-, rfl⟩ | ⟨-, rfl⟩ := hc <;> exact .inl rfl
  | getColor x =>
    obtain ⟨-, rfl⟩ | ⟨hx, ht⟩ := hc
    · exact .inl rfl
    · exact .inr (.inr (.inr ⟨x, rfl, hx, ht⟩))
  | setBrightness v => cases hc; exact .inl rfl
  | expandAll =>
    obtain ⟨hb, ht⟩ | ⟨-, rfl⟩ := hc
    · exact .inr (.inr (.inl ⟨rfl, hb, ht⟩))
    · exact .inl rfl
  | writeNb =>
    obtain ⟨hb, ht⟩ | ⟨-, rfl⟩ := hc
    · exact .inr (.inl ⟨.inl rfl, hb, ht⟩)
    · exact .inl rfl
  | writeB =>
    obtain ⟨hb, ht⟩ | ⟨-, rfl⟩ := hc
    · exact .inr (.inl ⟨.inr rfl, hb, ht⟩)
    · exact .inl rfl
  | waitComplete => obtain ⟨-, rfl⟩ | ⟨-, rfl⟩ := hc <;> exact .inl rfl
  | pollComplete => cases hc; exact .inl rfl

/-- Settles O41: a command that changes `fault` is in its own row of the table, and each row's command raises its code. -/
theorem faultsArePreciseWithTheTablesCauses : Obligations.FaultsArePreciseWithTheTablesCauses := by
  refine ⟨fun i s t h hne => ?cause, fun s hr hb => ?busy, fun s x => exec_getColor_of_ge, rfl, rfl, rfl, rfl⟩
  case cause =>
    obtain hkept | ⟨hi, hb, rfl⟩ | ⟨rfl, hb, rfl⟩ | ⟨x, rfl, hx, rfl⟩ := exec_keeps_fault_or_raises h
    · exact absurd hkept hne
    · exact ⟨rfl, .inl ⟨rfl, hi, hb⟩⟩
    · exact ⟨rfl, .inr (.inl ⟨rfl, rfl, hb⟩)⟩
    · exact ⟨rfl, .inr (.inr ⟨rfl, x, rfl, hx⟩)⟩
  case busy => exact ⟨exec_writeNb_of_busy hr hb, exec_writeB_of_busy hr hb, exec_expandAll_of_busy hr hb⟩

/-- Settles O43: a ready host's command answers a next state; a code it raised would have one of the excluded causes. -/
theorem everyCommandIsAvailableWhenReady : Obligations.EveryCommandIsAvailableWhenReady := by
  intro i s hr
  obtain ⟨t, ht⟩ := exists_exec_next hr i
  refine ⟨t, ht, fun hb hrange => ?_⟩
  obtain hkept | ⟨-, hbusy, -⟩ | ⟨-, hbusy, -⟩ | ⟨x, hi, hx, -⟩ := exec_keeps_fault_or_raises ht
  · exact hkept.trans hr.1
  · exact absurd hbusy (Bool.eq_false_iff.1 hb)
  · exact absurd hbusy (Bool.eq_false_iff.1 hb)
  · exact absurd (hrange x hi) (Nat.not_lt.2 hx)

/-! ### After a fault (R601) -/

/-- Every agent's enabling condition has `fault = NONE` in it. -/
theorem fault_none_of_enabled (he : agentEnabled a s = true) : s.fault = .none := by
  cases a with
  | host =>
    simp only [agentEnabled, hostEnabled, Bool.and_eq_true, decide_eq_true_eq] at he
    obtain ⟨hf, -⟩ := he
    exact hf
  | dma => exact (dmaEnabled_iff.1 he).1
  | completion => exact (completionEnabled_iff.1 he).1

/-- Settles O42: agents and commands need `fault = NONE`, so the first step of a run already stops. -/
theorem aFaultStopsEveryAgentForEver : Obligations.AFaultStopsEveryAgentForEver := by
  refine ⟨fun code s => rfl, fun s hf => ⟨fun a => ?agents, fun i t h => ?commands, fun k t hk h => ?runs⟩⟩
  case agents => exact Bool.eq_false_iff.2 fun he => hf (fault_none_of_enabled he)
  case commands =>
    obtain ⟨⟨hnone, -⟩, -⟩ := exec_next h
    exact hf hnone
  case runs =>
    obtain ⟨k, rfl⟩ := Nat.exists_eq_add_one.2 hk
    obtain ⟨u, hu, -⟩ := runsTo_succ.1 h
    cases (step_of_fault hf).symm.trans hu

/-! ### What stops a step (R601 to R604) -/

/-- The hang: a held host, `done = 0` and no hardware agent to set it (R604). -/
theorem step_of_endless_wait (hf : s.fault = .none) (hw : s.hwait = .waitDone) (hd : s.done = false)
    (ha : hardwareAgent s = none) : step s = .fault .waitNeverEnds := by
  have hh : hostEnabled s = false := by simp [hostEnabled, hw, hd]
  rw [step_of_nothing hf hh ha, nothingEnabled, hw]

theorem step_of_nothing_to_do (hf : s.fault = .none) (hw : s.hwait = .run) (hc : s.cmds = [])
    (ha : hardwareAgent s = none) : step s = .refused .noCommand := by
  have hh : hostEnabled s = false := by simp [hostEnabled, hw, hc]
  rw [step_of_nothing hf hh ha, nothingEnabled, hw]

theorem step_fault_iff {f : Fault} : step s = .fault f ↔
    (s.fault ≠ .none ∧ f = .stopped s.fault) ∨
    (s.fault = .none ∧ s.hwait = .waitDone ∧ s.done = false ∧ hardwareAgent s = none ∧ f = .waitNeverEnds) := by
  constructor
  · intro h
    obtain ⟨t, ht⟩ | ⟨hf, ht⟩ | ⟨hf, hw, hd, ha, ht⟩ | ⟨-, -, -, -, ht⟩ | ⟨-, why, -, ht⟩ := step_outcome s
    case inr.inl => exact .inl ⟨hf, Host.Outcome.fault.inj (h.symm.trans ht)⟩
    case inr.inr.inl => exact .inr ⟨hf, hw, hd, ha, Host.Outcome.fault.inj (h.symm.trans ht)⟩
    all_goals cases h.symm.trans ht
  · rintro (⟨hf, rfl⟩ | ⟨hf, hw, hd, ha, rfl⟩)
    · exact step_of_fault hf
    · exact step_of_endless_wait hf hw hd ha

/-- A step refused for anything but an idle host has a reserved word next. -/
theorem reservedNext_of_refused {r : Refusal} (h : step s = .refused r) (hr : r ≠ .noCommand) :
    s.fault = .none ∧ ∃ why, ReservedNext s why ∧ r = .reservedWord why := by
  obtain ⟨t, ht⟩ | ⟨-, ht⟩ | ⟨-, -, -, -, ht⟩ | ⟨-, -, -, -, ht⟩ | ⟨hf, why, hres, ht⟩ := step_outcome s
  case inr.inr.inr.inl => exact absurd (Host.Outcome.refused.inj (h.symm.trans ht)) hr
  case inr.inr.inr.inr => exact ⟨hf, why, hres, Host.Outcome.refused.inj (h.symm.trans ht)⟩
  all_goals cases h.symm.trans ht

/-- Settles O44: `step_outcome` lists what a step answers; each stop's condition on the state gives it back. -/
theorem stepStopsOnlyForTheSpecsReasons : Obligations.StepStopsOnlyForTheSpecsReasons := by
  refine ⟨fun s f => step_fault_iff, fun s => ⟨idle_host_of_noCommand, ?nothingToDo⟩, fun s r h hr => ?reserved⟩
  case nothingToDo =>
    rintro ⟨hf, hw, hc, ha⟩
    exact step_of_nothing_to_do hf hw hc ha
  case reserved =>
    obtain ⟨hf, why, ⟨hw, w, rest, hc, hd⟩, hwhy⟩ := reservedNext_of_refused h hr
    exact ⟨hf, hw, w, rest, why, hc, hd, hwhy⟩

/-! ### The next agent (R613) -/

/-- A beat needs `dma_idx` below T, the completion event `dma_idx` at T. -/
theorem not_completionEnabled_of_dmaEnabled (hd : dmaEnabled s = true) : ¬ completionEnabled s = true := by
  intro hc
  obtain ⟨-, -, hlt⟩ := dmaEnabled_iff.1 hd
  obtain ⟨-, -, hT⟩ := completionEnabled_iff.1 hc
  exact absurd hT hlt.ne

/-- An enabled agent that is not the host is the one `hardwareAgent` names. -/
theorem hardwareAgent_of_enabled (hn : a ≠ .host) (he : agentEnabled a s = true) : hardwareAgent s = some a := by
  cases a with
  | host => exact absurd rfl hn
  | dma => exact if_pos he
  | completion =>
    have hd : ¬ dmaEnabled s = true := fun hd => not_completionEnabled_of_dmaEnabled hd he
    exact (if_neg hd).trans (if_pos he)

/-- An agent enabled alone steps: no other one is there to be chosen. -/
theorem step_of_enabled_alone (he : agentEnabled a s = true) (halone : ∀ b, agentEnabled b s = true → b = a) :
    step s = agentStep a s := by
  have hf := fault_none_of_enabled he
  by_cases hn : a = .host
  · subst hn
    have ha : hardwareAgent s = none := by
      refine Option.eq_none_iff_forall_ne_some.2 fun b hb => ?_
      obtain ⟨hb, heb⟩ := enabled_of_hardwareAgent hb
      exact hb (halone b heb)
    exact step_of_host hf he ha
  · have hh : hostEnabled s = false := Bool.eq_false_iff.2 fun hh => hn (halone .host hh).symm
    exact step_of_hardware hf hh (hardwareAgent_of_enabled hn he)

/-- Settles O47: an enabled host and an enabled hardware agent make a choice, which the schedule's first entry decides. -/
theorem anyEnabledAgentMayGoNext : Obligations.AnyEnabledAgentMayGoNext := by
  refine ⟨fun s a sc hh he hn => ?choice, fun s a => step_of_enabled_alone,
    fun s ⟨hd, hc⟩ => not_completionEnabled_of_dmaEnabled hd hc⟩
  case choice =>
    have hstep := step_of_choice (fault_none_of_enabled hh) hh (hardwareAgent_of_enabled hn he)
    refine ⟨fun hs => ?host, fun hs => ?hardware⟩
    case host => rw [hstep, takeTurn, hs]; rfl
    case hardware => rw [hstep, takeTurn, hs]

/-! ### Several engines (R619) -/

theorem stepInstance_of_next {k : Nat} {fleet : List State} (hk : fleet[k]? = some s) (hs : step s = .next t) :
    stepInstance k fleet = .next (fleet.set k t) := by
  simp only [stepInstance, hk, hs]

/-- A step of one engine is the step of its state in the list, put back in its place. -/
theorem stepInstance_next {k : Nat} {fleet fleet' : List State} (h : stepInstance k fleet = .next fleet') :
    ∃ s t, fleet[k]? = some s ∧ step s = .next t ∧ fleet' = fleet.set k t := by
  unfold stepInstance at h
  split at h
  · cases h
  · next s hk =>
    split at h
    · next t hs => cases h; exact ⟨s, t, hk, hs, rfl⟩
    · cases h
    · cases h

/-- Settles O60: putting one state back in its place leaves the list's other places. -/
theorem instancesAreIndependent : Obligations.InstancesAreIndependent := by
  refine ⟨fun k fleet fleet' h => ?independent, fun k fleet s t => stepInstance_of_next⟩
  case independent =>
    obtain ⟨s, t, hk, hs, rfl⟩ := stepInstance_next h
    obtain ⟨hlt, -⟩ := List.getElem?_eq_some_iff.1 hk
    exact ⟨⟨s, t, hk, hs, List.getElem?_set_self hlt⟩, fun j hj => List.getElem?_set_ne hj.symm⟩

end Sys2Proof.Machine

/-! PROOFS. Reset as one construction, the first agent after it, and the settings that fix a frame
(70_reset_and_hazards.md). -/

namespace Sys2Proof.Machine

open Sys2Proof.Claims

variable {s s' t t' : State} {i : Instr} {is : List Instr} {c : Config} {a : InitArgs}

/-! ### The reset state (R700) -/

/-- INIT_RAW of the reset arguments is what unlisted bytes read as, so writing it lists none (log entry 5). -/
theorem constructed_atReset : constructed Config.atReset InitArgs.atReset = State.reset := rfl

theorem atReset_wf : Config.atReset.wf = true := by decide

/-- Settles O50: the reset state is a constructed one, and a construction from fitting arguments has the invariant. -/
theorem resetHasTheInvariant : Obligations.ResetHasTheInvariant := by
  have hinv : (constructed Config.atReset InitArgs.atReset).Inv := constructed_inv atReset_wf (by decide) (by decide)
  rwa [constructed_atReset] at hinv

/-! ### The first step after construction (R701) -/

theorem construct_next (h : construct c a = .next s) : s = constructed c a := by
  unfold construct at h
  split at h
  · exact (Host.Outcome.next.inj h).symm
  · cases h

theorem agentEnabled_eq_false_of_not_inflight {g : Agent} (hn : g ≠ .host) (hf : s.fsm ≠ .inflight) :
    agentEnabled g s = false := by
  refine Bool.eq_false_iff.2 fun he => ?_
  obtain ⟨hfl, -⟩ := inflight_of_hardware_enabled hn he
  exact hf hfl

/-- Settles O52: the reset arguments fit and construct the reset state; a constructed state is IDLE, where neither hardware
agent is enabled, and its host runs. -/
theorem resetIsAConstructedState : Obligations.ResetIsAConstructedState := by
  refine ⟨?reset, fun c a s w h => ?agents⟩
  case reset =>
    rw [construct_of_wf atReset_wf (fit_iff.2 (by decide)), constructed_atReset]
  case agents =>
    obtain rfl := construct_next h
    have hfsm : (constructed c a).fsm ≠ .inflight := nofun
    exact ⟨agentEnabled_eq_false_of_not_inflight nofun hfsm, agentEnabled_eq_false_of_not_inflight nofun hfsm,
      hostEnabled_of_cmds (s := { constructed c a with cmds := [w] }) ⟨rfl, rfl⟩ rfl⟩

/-! ### Settings and the frame (R703) -/

/-- The command sets the brightness or the colour of a pixel. -/
def IsSetting (i : Instr) : Prop := (∃ v, i = .setBrightness v) ∨ ∃ x r g b, i = .setColor x r g b

/-- Some command of the list sets the brightness. -/
def SetsBrightness (is : List Instr) : Prop := ∃ v, .setBrightness v ∈ is

/-- Some command of the list sets pixel `k`. -/
def SetsPixel (k : Nat) (is : List Instr) : Prop := ∃ x r g b, .setColor x r g b ∈ is ∧ x.toNat = k

/-- Two states of one configuration that agree on everything the commands `is` have set. -/
structure AgreeOn (is : List Instr) (s s' : State) : Prop where
  cfg : s.cfg = s'.cfg
  length : s.colors.length = s.cfg.n
  length' : s'.colors.length = s'.cfg.n
  bp1 : SetsBrightness is → s.bp1 = s'.bp1
  colorAt : ∀ k, k < s.cfg.n → SetsPixel k is → s.colorAt k = s'.colorAt k

theorem setsBrightness_append_setColor {x : PixelIdx} {r g b : Byte} :
    SetsBrightness (is ++ [.setColor x r g b]) ↔ SetsBrightness is := by
  simp [SetsBrightness]

theorem setsPixel_append_setBrightness {k : Nat} {v : Byte} :
    SetsPixel k (is ++ [.setBrightness v]) ↔ SetsPixel k is := by
  simp [SetsPixel]

theorem setsPixel_of_append_setColor {k : Nat} {x : PixelIdx} {r g b : Byte} (hx : x.toNat ≠ k)
    (h : SetsPixel k (is ++ [.setColor x r g b])) : SetsPixel k is := by
  obtain ⟨y, r', g', b', hmem, rfl⟩ := h
  obtain hmem | hmem := List.mem_append.1 hmem
  · exact ⟨y, r', g', b', hmem, rfl⟩
  · cases List.mem_singleton.1 hmem
    exact absurd rfl hx

/-- A pixel of the buffer after SET_COLOR, whether or not the command's own index is in range. -/
theorem colorAt_of_exec_setColor {x : PixelIdx} {r g b : Byte} {k : Nat} (h : exec (.setColor x r g b) s = .next t)
    (hlen : s.colors.length = s.cfg.n) (hk : k < s.cfg.n) :
    t.colorAt k = if x.toNat = k then ⟨r, g, b⟩ else s.colorAt k := by
  obtain ⟨-, ⟨hx, rfl⟩ | ⟨hx, rfl⟩⟩ := exec_next h
  · split_ifs with hxk
    · subst hxk
      exact colorAt_storeColor_same (hlen ▸ hx)
    · exact colorAt_storeColor_other (Ne.symm hxk)
  · exact (if_neg (hk.trans_le hx).ne').symm

theorem bp1_of_exec_setBrightness {v : Byte} (h : exec (.setBrightness v) s = .next t) :
    t.bp1 = brightnessPlusOne v := by
  obtain ⟨-, ht⟩ := exec_next h
  cases ht
  rfl

theorem colorAt_of_exec_setBrightness {v : Byte} (h : exec (.setBrightness v) s = .next t) (k : Nat) :
    t.colorAt k = s.colorAt k := by
  obtain ⟨-, ht⟩ := exec_next h
  cases ht
  rfl

theorem bp1_of_exec_setColor {x : PixelIdx} {r g b : Byte} (h : exec (.setColor x r g b) s = .next t) :
    t.bp1 = s.bp1 := by
  obtain ⟨-, ⟨-, rfl⟩ | ⟨-, rfl⟩⟩ := exec_next h <;> rfl

theorem length_colors_of_exec (h : exec i s = .next t) : t.colors.length = s.colors.length := by
  cases commandWrites_of_exec h with
  | color => exact List.length_set
  | _ => rfl

theorem AgreeOn.bp1_exec (h : AgreeOn is s s') (hi : IsSetting i) (ht : exec i s = .next t)
    (ht' : exec i s' = .next t') (hset : SetsBrightness (is ++ [i])) : t.bp1 = t'.bp1 := by
  obtain ⟨v, rfl⟩ | ⟨x, r, g, b, rfl⟩ := hi
  · rw [bp1_of_exec_setBrightness ht, bp1_of_exec_setBrightness ht']
  · rw [bp1_of_exec_setColor ht, bp1_of_exec_setColor ht', h.bp1 (setsBrightness_append_setColor.1 hset)]

theorem AgreeOn.colorAt_exec {k : Nat} (h : AgreeOn is s s') (hi : IsSetting i) (ht : exec i s = .next t)
    (ht' : exec i s' = .next t') (hk : k < s.cfg.n) (hset : SetsPixel k (is ++ [i])) :
    t.colorAt k = t'.colorAt k := by
  obtain ⟨v, rfl⟩ | ⟨x, r, g, b, rfl⟩ := hi
  · rw [colorAt_of_exec_setBrightness ht, colorAt_of_exec_setBrightness ht']
    exact h.colorAt k hk (setsPixel_append_setBrightness.1 hset)
  · rw [colorAt_of_exec_setColor ht h.length hk, colorAt_of_exec_setColor ht' h.length' (h.cfg ▸ hk)]
    split_ifs with hx
    · rfl
    · exact h.colorAt k hk (setsPixel_of_append_setColor hx hset)

/-- One setting makes the two states agree on what it sets, and keeps what they agreed on. -/
theorem AgreeOn.exec (h : AgreeOn is s s') (hi : IsSetting i) (ht : exec i s = .next t) (ht' : exec i s' = .next t') :
    AgreeOn (is ++ [i]) t t' where
  cfg := by rw [exec_cfg ht, exec_cfg ht', h.cfg]
  length := by rw [length_colors_of_exec ht, exec_cfg ht, h.length]
  length' := by rw [length_colors_of_exec ht', exec_cfg ht', h.length']
  bp1 := h.bp1_exec hi ht ht'
  colorAt _ hk := h.colorAt_exec hi ht ht' (exec_cfg ht ▸ hk)

theorem runCommands_cons_next (h : runCommands (i :: is) s = .next t) :
    ∃ u, exec i s = .next u ∧ runCommands is u = .next t := by
  rw [runCommands] at h
  split at h
  · next u hu => exact ⟨u, hu, h⟩
  · cases h
  · cases h

theorem AgreeOn.runCommands {before : List Instr} (h : AgreeOn before s s') (his : ∀ i ∈ is, IsSetting i)
    (ht : runCommands is s = .next t) (ht' : runCommands is s' = .next t') : AgreeOn (before ++ is) t t' := by
  induction is generalizing before s s' with
  | nil =>
    cases ht
    cases ht'
    rwa [List.append_nil]
  | cons i is ih =>
    obtain ⟨u, hu, ht⟩ := runCommands_cons_next ht
    obtain ⟨u', hu', ht'⟩ := runCommands_cons_next ht'
    obtain ⟨hi, his⟩ := List.forall_mem_cons.1 his
    rw [List.append_cons]
    exact ih (h.exec hi hu hu') his ht ht'

/-- The frame shows the brightness and the pixels below N, and nothing else of the frame buffer. -/
theorem AgreeOn.frame_eq (h : AgreeOn is s s') (hb : SetsBrightness is) (hp : ∀ k, k < s.cfg.n → SetsPixel k is) :
    frame s = frame s' := by
  have hdata : frameData s = frameData s' := by
    rw [frameData, frameData, ← h.cfg, ← h.bp1 hb]
    refine List.flatMap_congr fun k hk => ?_
    have hk : k < s.cfg.n := List.mem_range.1 hk
    rw [h.colorAt k hk (hp k hk)]
  rw [frame, frame, hdata, h.cfg]

theorem cfg_of_runCommands (h : runCommands is s = .next t) : t.cfg = s.cfg := by
  induction is generalizing s with
  | nil => cases h; rfl
  | cons i is ih =>
    obtain ⟨u, hu, h⟩ := runCommands_cons_next h
    exact (ih h).trans (exec_cfg hu)

/-- Settles O59: on what the empty list sets any two states agree; each setting adds what it sets, so after the whole list
they agree on the brightness and on every pixel, which is all that a frame shows. -/
theorem settingEverythingDeterminesTheFrame : Obligations.SettingEverythingDeterminesTheFrame := by
  intro is s s' t t' hcfg hlen hlen' hb hp his ht ht'
  have hnone : AgreeOn [] s s' := ⟨hcfg, hlen, hlen', nofun, nofun⟩
  have hall : AgreeOn is t t' := hnone.runCommands his ht ht'
  exact hall.frame_eq hb (cfg_of_runCommands ht ▸ hp)

end Sys2Proof.Machine
